-- ==== Sys2Proof/Word.lean ====
section
/-! DEFINITION. The word and byte types (00_scope.md R5, R7). -/

namespace Sys2Proof

/-- A 32-bit unsigned word: digest, block and round words, and bus data (R5, R7). -/
abbrev Word := BitVec 32

/-- One byte of the working block or of the digest (R56, R57). -/
abbrev Byte := BitVec 8

end Sys2Proof
end

