-- ==== Sys2Proof/Syntax.lean ====
section
/-! DEFINITION. What the core decodes (30_encoding.md): bus accesses, command words, and the one type
of instructions, a constructor per row of spec/opcode_table.json. -/

namespace Sys2Proof

/-- One bus access as the ports carry it (20_memory.md R50, R51): we (1 = write), be, addr, wdata. -/
structure Access where
  we    : Bool
  be    : BitVec 4
  addr  : BitVec 7
  wdata : Word
  deriving DecidableEq, Repr

/-- The word registers of the window (20_memory.md R52). -/
inductive Reg where
  | cmd
  | status
  | lenLo
  | lenHi
  | digest (j : Fin 4)
  | reserved (x : Fin 8)
  | blk (j : Fin 16)
  deriving DecidableEq, Repr

/-- A legal command word, decoded (30_encoding.md R81, R85). `filled` is the 7-bit field of R82. -/
inductive Command where
  | nop
  | init
  | block
  | final (filled : BitVec 7)
  deriving DecidableEq, Repr

/-- Why a command word is illegal (30_encoding.md R83, R84): each is ILLEGAL_OP to the core. -/
inductive CommandReject where
  /-- OP is one of 0x4 to 0xF (R84). -/
  | reservedOp
  /-- A bit of RES0 (7:4) or RES1 (31:15) is set (R83). -/
  | reservedBit
  /-- FILLED is not 0 and OP is not FINAL (R83). -/
  | filledWithoutFinal
  deriving DecidableEq, Repr

/-- The instructions: one constructor per row of spec/opcode_table.json. The first four are command
words, the rest bus accesses. -/
inductive Instr where
  /-- NOP (R170). -/
  | nop
  /-- INIT (R171). -/
  | init
  /-- BLOCK (R112). -/
  | block
  /-- FINAL f (R142), f the 7-bit field FILLED. -/
  | final (filled : BitVec 7)
  /-- WR CMD (R172): a good write of the word w to CMD. -/
  | wrCmd (w : Word)
  /-- RD CMD (R181). -/
  | rdCmd
  /-- RD STATUS (R178). -/
  | rdStatus
  /-- WR STATUS (R180). -/
  | wrStatus (w : Word)
  /-- WR LEN_LO (R173). -/
  | wrLenLo (w : Word)
  /-- RD LEN_LO (R175). -/
  | rdLenLo
  /-- WR LEN_HI (R174). -/
  | wrLenHi (w : Word)
  /-- RD LEN_HI (R175). -/
  | rdLenHi
  /-- RD DIGESTj (R179), j = addr[3:2]. -/
  | rdDigest (j : Fin 4)
  /-- WR DIGESTj (R180). -/
  | wrDigest (j : Fin 4) (w : Word)
  /-- RD RESERVED (R181): the reserved word x = addr[4:2], offset 0x20 + 4x. -/
  | rdReserved (x : Fin 8)
  /-- WR RESERVED (R180). -/
  | wrReserved (x : Fin 8) (w : Word)
  /-- WR BLKj (R176), j = addr[5:2]. -/
  | wrBlk (j : Fin 16) (w : Word)
  /-- RD BLKj (R177). -/
  | rdBlk (j : Fin 16)
  /-- BAD ACCESS (narrow) (R207): be is not 0b1111, whatever addr is. -/
  | badAccessNarrow (we : Bool) (be : BitVec 4) (addr : BitVec 7) (wdata : Word)
  /-- BAD ACCESS (misaligned) (R207): addr[1:0] is not 0b00, and be is 0b1111 (an access that is narrow
  as well is the row above: log entry 8). -/
  | badAccessMisaligned (we : Bool) (addr : BitVec 7) (wdata : Word)
  deriving DecidableEq, Repr

/-- The row of the opcode table a command stands on. -/
def Command.toInstr : Command → Instr
  | .nop => .nop
  | .init => .init
  | .block => .block
  | .final f => .final f

end Sys2Proof
end

