-- ==== Sys2Proof/WellFormed.lean ====
section
/-! DEFINITION. Which terms of `Instr` are instructions: the conditions of the two BAD ACCESS rows
(20_memory.md R53, 60_exceptions.md R207). Every other operand has exactly the width of its field. -/

namespace Sys2Proof

/-- The row's own condition on its operands. -/
def Instr.wf : Instr → Bool
  | .nop => true
  | .init => true
  | .block => true
  | .final _ => true
  | .wrCmd _ => true
  | .rdCmd => true
  | .rdStatus => true
  | .wrStatus _ => true
  | .wrLenLo _ => true
  | .rdLenLo => true
  | .wrLenHi _ => true
  | .rdLenHi => true
  | .rdDigest _ => true
  | .wrDigest _ _ => true
  | .rdReserved _ => true
  | .wrReserved _ _ => true
  | .wrBlk _ _ => true
  | .rdBlk _ => true
  | .badAccessNarrow _ be _ _ => be != 0xF
  | .badAccessMisaligned _ addr _ => addr.extractLsb' 0 2 != 0

/-- Which rows are command words, carried by a write to CMD (30_encoding.md R80, R88). -/
def Instr.isCommand : Instr → Bool
  | .nop => true
  | .init => true
  | .block => true
  | .final _ => true
  | .wrCmd _ => false
  | .rdCmd => false
  | .rdStatus => false
  | .wrStatus _ => false
  | .wrLenLo _ => false
  | .rdLenLo => false
  | .wrLenHi _ => false
  | .rdLenHi => false
  | .rdDigest _ => false
  | .wrDigest _ _ => false
  | .rdReserved _ => false
  | .wrReserved _ _ => false
  | .wrBlk _ _ => false
  | .rdBlk _ => false
  | .badAccessNarrow _ _ _ _ => false
  | .badAccessMisaligned _ _ _ => false

end Sys2Proof
end

