-- ==== Sys2Proof/Decode.lean ====
section
/-! DEFINITION. Decoding of bus accesses (30_encoding.md R86, 20_memory.md R52, R53) and of command
words (30_encoding.md R83, R85), and the encoders written from the same tables. -/

namespace Sys2Proof

/-! ## Bus accesses -/

/-- The 12-bit access value we << 11 | be << 7 | addr (R86). -/
def Access.value (a : Access) : BitVec 12 := BitVec.ofBool a.we ++ a.be ++ a.addr

/-- The access with the 12-bit value v and write data w. -/
def Access.ofValue (v : BitVec 12) (w : Word) : Access :=
  { we := v.getLsbD 11, be := v.extractLsb' 7 4, addr := v.extractLsb' 0 7, wdata := w }

/-- A good access: a full word at an aligned offset (R53). -/
def Access.good (a : Access) : Bool := a.be == 0xF && a.addr.extractLsb' 0 2 == 0

/-- The register at an aligned offset (R52): addr[6] selects BLK, then addr[5] the reserved words, then
addr[4] the digest. -/
def Reg.at (addr : BitVec 7) : Reg :=
  if addr.getLsbD 6 then .blk (addr.extractLsb' 2 4).toFin
  else if addr.getLsbD 5 then .reserved (addr.extractLsb' 2 3).toFin
  else if addr.getLsbD 4 then .digest (addr.extractLsb' 2 2).toFin
  else if addr.extractLsb' 2 2 = 0 then .cmd
  else if addr.extractLsb' 2 2 = 1 then .status
  else if addr.extractLsb' 2 2 = 2 then .lenLo
  else .lenHi

/-- The byte offset of a register (R52). -/
def Reg.offset : Reg → BitVec 7
  | .cmd => 0x00
  | .status => 0x04
  | .lenLo => 0x08
  | .lenHi => 0x0C
  | .digest j => BitVec.ofNat 7 (0x10 + 4 * j.val)
  | .reserved x => BitVec.ofNat 7 (0x20 + 4 * x.val)
  | .blk j => BitVec.ofNat 7 (0x40 + 4 * j.val)

/-- A good write of w to a register. -/
def Reg.writeRow (w : Word) : Reg → Instr
  | .cmd => .wrCmd w
  | .status => .wrStatus w
  | .lenLo => .wrLenLo w
  | .lenHi => .wrLenHi w
  | .digest j => .wrDigest j w
  | .reserved x => .wrReserved x w
  | .blk j => .wrBlk j w

/-- A good read of a register. -/
def Reg.readRow : Reg → Instr
  | .cmd => .rdCmd
  | .status => .rdStatus
  | .lenLo => .rdLenLo
  | .lenHi => .rdLenHi
  | .digest j => .rdDigest j
  | .reserved x => .rdReserved x
  | .blk j => .rdBlk j

/-- The row of a bus access (R86): good or bad first, then the offset. Total: every access has a row.
The wdata of a read is no part of it (log entry 9). -/
def decodeAccess (a : Access) : Instr :=
  if a.be ≠ 0xF then .badAccessNarrow a.we a.be a.addr a.wdata
  else if a.addr.extractLsb' 0 2 ≠ 0 then .badAccessMisaligned a.we a.addr a.wdata
  else if a.we then (Reg.at a.addr).writeRow a.wdata
  else (Reg.at a.addr).readRow

/-! ## Command words -/

/-- The word's legality, letter for letter the test of R83. -/
def legalCommand (w : Word) : Bool :=
  decide (w.extractLsb' 0 4 ≤ 0x3) && (w &&& 0xFFFF80F0 == 0) &&
    (w.extractLsb' 0 4 == 0x3 || w.extractLsb' 8 7 == 0)

/-- The command of a word, total over all 2^32 words (R85); an illegal word is rejected by name. -/
def decodeCommand (w : Word) : Except CommandReject Command :=
  if 0x3 < w.extractLsb' 0 4 then .error .reservedOp
  else if w &&& 0xFFFF80F0 ≠ 0 then .error .reservedBit
  else if w.extractLsb' 0 4 = 0x3 then .ok (.final (w.extractLsb' 8 7))
  else if w.extractLsb' 8 7 ≠ 0 then .error .filledWithoutFinal
  else if w.extractLsb' 0 4 = 0x0 then .ok .nop
  else if w.extractLsb' 0 4 = 0x1 then .ok .init
  else .ok .block

/-! ## Encoders -/

/-- The canonical command words (R87). -/
def Command.encode : Command → Word
  | .nop => 0x00000000
  | .init => 0x00000001
  | .block => 0x00000002
  | .final f => 0x00000003 ||| (f.setWidth 32 <<< 8)

/-- A good write of w to a register. -/
def Access.write (r : Reg) (w : Word) : Access := { we := true, be := 0xF, addr := r.offset, wdata := w }

/-- A good read of a register. -/
def Access.read (r : Reg) : Access := { we := false, be := 0xF, addr := r.offset, wdata := 0 }

/-- The access that carries an instruction: for a command word, the good write of it to CMD (R88). -/
def encode : Instr → Access
  | .nop => .write .cmd Command.nop.encode
  | .init => .write .cmd Command.init.encode
  | .block => .write .cmd Command.block.encode
  | .final f => .write .cmd (Command.final f).encode
  | .wrCmd w => .write .cmd w
  | .rdCmd => .read .cmd
  | .rdStatus => .read .status
  | .wrStatus w => .write .status w
  | .wrLenLo w => .write .lenLo w
  | .rdLenLo => .read .lenLo
  | .wrLenHi w => .write .lenHi w
  | .rdLenHi => .read .lenHi
  | .rdDigest j => .read (.digest j)
  | .wrDigest j w => .write (.digest j) w
  | .rdReserved x => .read (.reserved x)
  | .wrReserved x w => .write (.reserved x) w
  | .wrBlk j w => .write (.blk j) w
  | .rdBlk j => .read (.blk j)
  | .badAccessNarrow we be addr wdata => { we := we, be := be, addr := addr, wdata := wdata }
  | .badAccessMisaligned we addr wdata => { we := we, be := 0xF, addr := addr, wdata := wdata }

/-! ## Words as spec/opcode_table.json numbers them -/

/-- The access a table word stands for: a 32-bit word is a command word, delivered by the good write of
it to CMD (R80); a 12-bit value (16 bits in whole bytes) is an access whose wdata is 0. -/
def fetchAccess (nbits w : Nat) : Option Access :=
  if nbits = 32 then
    if w < 2 ^ 32 then some (.write .cmd (BitVec.ofNat 32 w)) else none
  else if nbits = 12 ∨ nbits = 16 then
    if w < 2 ^ 12 then some (.ofValue (BitVec.ofNat 12 w) 0) else none
  else none

/-- What the decoder reads from a table word (log entry 7). -/
def decodeTableWord (nbits w : Nat) : Option Instr :=
  if nbits = 32 then
    if w < 2 ^ 32 then
      match decodeCommand (BitVec.ofNat 32 w) with
      | .ok c => some c.toInstr
      | .error _ => none
    else none
  else (fetchAccess nbits w).map decodeAccess

end Sys2Proof
end

