-- ==== Sys2Proof/Machine/State.lean ====
section
/-! DEFINITION. The state: the architectural state of one core (10_state.md R20), the ports, and what
the environment does next; its value after reset (R39); the reasons a step can stop. -/

namespace Sys2Proof.Machine

/-- FSM (R27). The encoding 0b11 is never entered and has no name here (log entry 10). -/
inductive Fsm where
  | idle
  | round
  | accum
  deriving DecidableEq, Repr

/-- CONT (R28): what the accumulate step does after it has added the working tuple into H. -/
inductive Cont where
  | doneBlock
  | doneFinal
  | nextLenOnly
  | next80Len
  deriving DecidableEq, Repr

/-- ECODE (60_exceptions.md R201). The codes 6 to 15 are never produced (log entry 10). -/
inductive ErrorCode where
  | none
  | illegalOp
  | busy
  | badFilled
  | sequence
  | badAccess
  deriving DecidableEq, Repr

/-- The complete architectural state of one core (R20: "Nothing else is state"). -/
structure Regs where
  /-- H[0..3] (R21). -/
  h : Vector Word 4
  /-- BLK[0..15] (R23). -/
  blk : Vector Word 16
  /-- LEN, in bytes (R24). -/
  len : BitVec 64
  /-- RA, RB, RC, RD: the working tuple (R25). -/
  ra : Word
  rb : Word
  rc : Word
  rd : Word
  /-- RI (R26). -/
  ri : BitVec 6
  /-- FSM (R27). -/
  fsm : Fsm
  /-- CONT (R28). -/
  cont : Cont
  /-- DVALID (R29). -/
  dvalid : Bool
  /-- CERR (R30). -/
  cerr : Bool
  /-- ECODE (R30). -/
  ecode : ErrorCode
  deriving DecidableEq, Repr

/-- The response to an access: rdata and err (20_memory.md R51). -/
structure Reply where
  rdata : Word
  err   : Bool
  deriving DecidableEq, Repr

/-- What happens next at the core's edge (00_scope.md R11; log entry 1). -/
inductive Move where
  /-- The host performs one bus access. -/
  | access (a : Access)
  /-- The host's POLL loop (30_encoding.md R89): RD STATUS until BUSY reads 0. -/
  | poll
  /-- The core's turn: its one enabled step, if it has one (40_compression.md R106). -/
  | core
  /-- The platform drives rst to this level (70_reset_and_hazards.md R230). -/
  | rst (level : Bool)
  /-- clk is stopped: all state is held (60_exceptions.md R217). -/
  | hold
  deriving DecidableEq, Repr

/-- One access and its response, as the host has seen them. -/
structure Exchange where
  access : Access
  reply  : Reply
  deriving DecidableEq, Repr

/-- One core at its ports. -/
structure State where
  /-- The architectural state (R20). -/
  regs : Regs
  /-- The level of the reset pin (20_memory.md R50). -/
  rst : Bool
  /-- rdata and err of the latest access (R50, R51; log entry 4). -/
  reply : Reply
  /-- The environment's moves, the next one first (log entry 1). -/
  moves : List Move
  /-- The host's accesses and their responses, the newest first (log entry 5). -/
  log : List Exchange
  deriving DecidableEq, Repr

/-- A step never faults: an error is a recorded refusal after which the machine goes on (R200), a core
step cannot fail (R106), and the one invalid configuration of the source cannot arise (R105, R211).
No constructor, so nothing can raise one; safe. -/
inductive Fault where
  deriving DecidableEq, Repr

/-- An instruction without a meaning. -/
inductive Refusal where
  /-- Raised by an arm of `exec` for an instruction that has no meaning yet (none is left); safe. -/
  | notModelled (mnemonic : String)
  deriving DecidableEq, Repr

/-- The initial value IV of the digest state (R22). -/
def iv : Vector Word 4 := #v[0x67452301, 0xefcdab89, 0x98badcfe, 0x10325476]

/-- The reset value of the architectural state (R39, R230). -/
def Regs.reset : Regs :=
  { h := iv, blk := Vector.replicate 16 0, len := 0, ra := 0, rb := 0, rc := 0, rd := 0, ri := 0,
    fsm := .idle, cont := .doneBlock, dvalid := false, cerr := false, ecode := .none }

/-- The machine right after reset: rst just released, nothing pending, no access made yet. -/
def State.reset : State :=
  { regs := .reset, rst := false, reply := { rdata := 0, err := false }, moves := [], log := [] }

end Sys2Proof.Machine
end

