-- ==== Sys2Proof/Machine/Operands.lean ====
section
/-! DEFINITION. Operand forms: the byte view of words and of the working block, LEN's halves, BITLEN,
the digest's bytes, rotation (00_scope.md R8, R9; 20_memory.md R56-R58; 41_finalization.md R140). -/

namespace Sys2Proof.Machine

/-! ## Words -/

/-- rol32 (R8), used with amounts 1 to 31. -/
def rol32 (v : Word) (s : Nat) : Word := (v <<< s) ||| (v >>> (32 - s))

/-- The word of four bytes, the low byte first (R56). -/
def packWord (b0 b1 b2 b3 : Byte) : Word := b3 ++ b2 ++ b1 ++ b0

/-- Byte k of a word: bits [8k+7:8k] (R9, R56, R57). -/
def byteOf (w : Word) (k : Nat) : Byte := w.extractLsb' (8 * k) 8

/-! ## The working block -/

/-- BLKB[n] (R9, R56). -/
def blkByte (blk : Vector Word 16) (n : Fin 64) : Byte := byteOf blk[n.val / 4] (n.val % 4)

/-- The block whose bytes BLKB[n] are g n (R56). -/
def blkOfBytes (g : Fin 64 → Byte) : Vector Word 16 :=
  Vector.ofFn fun j : Fin 16 =>
    packWord (g ⟨4 * j.val, by omega⟩) (g ⟨4 * j.val + 1, by omega⟩)
      (g ⟨4 * j.val + 2, by omega⟩) (g ⟨4 * j.val + 3, by omega⟩)

/-- Every byte of the block rewritten at once from its number and its old value (R9: all writes of a
rule take effect together). -/
def mapBlk (g : Fin 64 → Byte → Byte) (blk : Vector Word 16) : Vector Word 16 :=
  blkOfBytes fun n => g n (blkByte blk n)

/-! ## LEN -/

/-- LEN_LO (R35). -/
def lenLo (len : BitVec 64) : Word := len.extractLsb' 0 32

/-- LEN_HI (R35). -/
def lenHi (len : BitVec 64) : Word := len.extractLsb' 32 32

/-- LEN from its halves (R24, R60). -/
def lenOf (hi lo : Word) : BitVec 64 := hi ++ lo

/-- BITLEN = (LEN * 8) mod 2^64 (R140). -/
def bitLen (len : BitVec 64) : BitVec 64 := len <<< 3

/-- Byte k of the length field: BITLEN[8k+7:8k] (R58, R141). -/
def lenByte (len : BitVec 64) (k : Nat) : Byte := (bitLen len).extractLsb' (8 * k) 8

/-! ## The digest -/

/-- Digest byte n = 4j + k: H[j][8k+7:8k] (20_memory.md R57, 42_control_and_readout.md R182). -/
def digestByte (h : Vector Word 4) (n : Fin 16) : Byte := byteOf h[n.val / 4] (n.val % 4)

end Sys2Proof.Machine
end

