-- ==== Sys2Proof/Machine/Flags.lean ====
section
/-! DEFINITION. BUSY, the STATUS word and the encodings of its fields (10_state.md R27, R28, R31, R33;
60_exceptions.md R201), and the two level outputs (20_memory.md R50). -/

namespace Sys2Proof.Machine

/-- The 2-bit encoding of FSM (R27). -/
def Fsm.bits : Fsm → BitVec 2
  | .idle => 0b00
  | .round => 0b01
  | .accum => 0b10

/-- The 2-bit encoding of CONT (R28). -/
def Cont.bits : Cont → BitVec 2
  | .doneBlock => 0b00
  | .doneFinal => 0b01
  | .nextLenOnly => 0b10
  | .next80Len => 0b11

/-- The 4-bit code of ECODE (R201). -/
def ErrorCode.bits : ErrorCode → BitVec 4
  | .none => 0
  | .illegalOp => 1
  | .busy => 2
  | .badFilled => 3
  | .sequence => 4
  | .badAccess => 5

/-- The column "bus err" of R201: only a bad access responds err = 1. -/
def ErrorCode.busErr : ErrorCode → Bool
  | .none => false
  | .illegalOp => false
  | .busy => false
  | .badFilled => false
  | .sequence => false
  | .badAccess => true

/-- BUSY (R31): FSM is not IDLE. -/
def Regs.busy (r : Regs) : Bool := r.fsm != .idle

/-- STATUS (R33), written as the rule writes it. -/
def Regs.status (r : Regs) : Word :=
  (r.cont.bits.setWidth 32 <<< 16) ||| (r.fsm.bits.setWidth 32 <<< 14) |||
    (r.ri.setWidth 32 <<< 8) ||| (r.ecode.bits.setWidth 32 <<< 4) |||
    ((BitVec.ofBool r.cerr).setWidth 32 <<< 2) ||| ((BitVec.ofBool r.dvalid).setWidth 32 <<< 1) |||
    (BitVec.ofBool r.busy).setWidth 32

/-- The output busy_o (R50, R212). -/
def State.busyOut (s : State) : Bool := s.regs.busy

/-- The output dvalid_o (R50, R212). -/
def State.dvalidOut (s : State) : Bool := s.regs.dvalid

end Sys2Proof.Machine
end

