-- ==== Sys2Proof/Machine/Ops.lean ====
section
/-! DEFINITION. The operations the meanings share: responding, recording an error (the hardware's
exception entry) and clearing the record, the ordered checks of a command (R208), the busy check of a
register write, the start of a compression (R108). -/

namespace Sys2Proof.Machine

/-- The outcomes of an instruction. -/
abbrev Result := Host.Outcome State Fault Refusal

/-! ## Registers -/

/-- LEN_LO <- w; LEN_HI is unchanged (R60, R173). -/
def Regs.setLenLo (w : Word) (r : Regs) : Regs := { r with len := lenOf (lenHi r.len) w }

/-- LEN_HI <- w; LEN_LO is unchanged (R60, R174). -/
def Regs.setLenHi (w : Word) (r : Regs) : Regs := { r with len := lenOf w (lenLo r.len) }

/-- BLK[j] <- w (R176). -/
def Regs.setBlkWord (j : Fin 16) (w : Word) (r : Regs) : Regs := { r with blk := r.blk.set j.val w }

/-- StartCompress (R108). -/
def Regs.startCompress (r : Regs) : Regs :=
  { r with ra := r.h[0], rb := r.h[1], rc := r.h[2], rd := r.h[3], ri := 0, fsm := .round }

/-! ## Errors -/

/-- RecordError (R204): the first code is kept. -/
def Regs.recordError (e : ErrorCode) (r : Regs) : Regs :=
  { r with ecode := if r.cerr then r.ecode else e, cerr := true }

/-- The error record cleared: only an accepted INIT or reset does this (R210). -/
def Regs.clearError (r : Regs) : Regs := { r with ecode := .none, cerr := false }

/-! ## Responses -/

/-- The access completes with the registers r; it responds rdata = v, err = 0 (R51, R53). -/
def complete (r : Regs) (v : Word) (s : State) : Result :=
  .next { s with regs := r, reply := { rdata := v, err := false } }

/-- The access is refused with error e (R200, R209): the error record is its only effect; rdata = 0, and
err as the code's row of R201 says. -/
def takeError (e : ErrorCode) (s : State) : Result :=
  .next { s with regs := s.regs.recordError e, reply := { rdata := 0, err := e.busErr } }

/-- A good read of the value v: no side effect (R62). -/
def readValue (v : Word) (s : State) : Result := complete s.regs v s

/-- A good write that the register ignores (R54, R55, R180). -/
def ignoreWrite (s : State) : Result := complete s.regs 0 s

/-- A good write to LEN or BLK: refused while BUSY = 1, else performed (R203, R208 step 3). -/
def writeUnlessBusy (f : Regs → Regs) (s : State) : Result :=
  if s.regs.busy then takeError .busy s else complete (f s.regs) 0 s

/-! ## Commands -/

/-- The checks b to e of R208 in their order, for a legal word: the error of the first that fails. -/
def commandError (c : Command) (r : Regs) : Option ErrorCode :=
  match c with
  | .nop => none
  | .init => if r.busy then some .busy else none
  | .block => if r.busy then some .busy else if r.dvalid then some .sequence else none
  | .final f =>
    if r.busy then some .busy
    else if r.dvalid then some .sequence
    else if 64 < f.toNat then some .badFilled
    else none

/-- A legal command: refused with the error of its checks, or performed by f (R208). -/
def attempt (c : Command) (f : Regs → Regs) (s : State) : Result :=
  match commandError c s.regs with
  | some e => takeError e s
  | none => complete (f s.regs) 0 s

end Sys2Proof.Machine
end

