-- ==== Sys2Proof/Machine/BadAccess.lean ====
section
/-! DEFINITION. The two BAD ACCESS rows (20_memory.md R53, 60_exceptions.md R207). -/

namespace Sys2Proof.Machine

/-- BAD ACCESS (narrow) (R207): nothing but the error record; a write is dropped, its word not decoded. -/
def execBadAccessNarrow (_we : Bool) (_be : BitVec 4) (_addr : BitVec 7) (_wdata : Word) (s : State) :
    Result :=
  takeError .badAccess s

/-- BAD ACCESS (misaligned) (R207): the same. -/
def execBadAccessMisaligned (_we : Bool) (_addr : BitVec 7) (_wdata : Word) (s : State) : Result :=
  takeError .badAccess s

end Sys2Proof.Machine
end

