-- ==== Sys2Proof/Machine/Padding.lean ====
section
/-! DEFINITION. md5_padding_finalizer: the padding of the working block (41_finalization.md R141-R147). -/

namespace Sys2Proof.Machine

/-- BLKB[f] <- 0x80 and BLKB[f+1..last] <- 0; every other byte is kept (R142). -/
def markAndZero (f last : Nat) : Vector Word 16 → Vector Word 16 :=
  mapBlk fun n b => if n.val = f then 0x80 else if f < n.val ∧ n.val ≤ last then 0x00 else b

/-- PutLen (R141): bytes 56 to 63 become BITLEN, low byte first. -/
def putLen (len : BitVec 64) : Vector Word 16 → Vector Word 16 :=
  mapBlk fun n b => if 56 ≤ n.val then lenByte len (n.val - 56) else b

/-- PadLenOnly (R146). -/
def padLenOnly (len : BitVec 64) (blk : Vector Word 16) : Vector Word 16 :=
  putLen len (mapBlk (fun n b => if n.val ≤ 55 then 0x00 else b) blk)

/-- Pad80Len (R147). -/
def pad80Len (len : BitVec 64) (blk : Vector Word 16) : Vector Word 16 :=
  putLen len (markAndZero 0 55 blk)

/-- What FINAL f does at acceptance (R142): the padding of its case, CONT, and StartCompress. -/
def Regs.acceptFinal (filled : BitVec 7) (r : Regs) : Regs :=
  if filled.toNat < 56 then
    { r with blk := putLen r.len (markAndZero filled.toNat 55 r.blk), cont := .doneFinal }.startCompress
  else if filled.toNat ≤ 63 then
    { r with blk := markAndZero filled.toNat 63 r.blk, cont := .nextLenOnly }.startCompress
  else
    { r with cont := .next80Len }.startCompress

end Sys2Proof.Machine
end

