-- ==== Sys2Proof/Machine/Compression.lean ====
section
/-! DEFINITION. md5_compression_round: the selections F, K, S and T with the constant ROM
(40_compression.md R100-R104), the round step (R109), the accumulate step (R110, R111), and BLOCK (R112). -/

namespace Sys2Proof.Machine

/-! ## Per-step selections -/

/-- The group of step i: i / 16 = i[5:4] (R100). -/
def groupOf (i : BitVec 6) : BitVec 2 := i.extractLsb' 4 2

/-- F, chosen by the group (R100). -/
def mix (g : BitVec 2) (x y z : Word) : Word :=
  if g = 0 then (x &&& y) ||| (~~~x &&& z)
  else if g = 1 then (x &&& z) ||| (y &&& ~~~z)
  else if g = 2 then x ^^^ y ^^^ z
  else y ^^^ (x ||| ~~~z)

/-- K(i), the block-word index (R101). -/
def kIndex (i : BitVec 6) : Fin 16 :=
  if groupOf i = 0 then ⟨i.toNat % 16, Nat.mod_lt _ (by decide)⟩
  else if groupOf i = 1 then ⟨(5 * i.toNat + 1) % 16, Nat.mod_lt _ (by decide)⟩
  else if groupOf i = 2 then ⟨(3 * i.toNat + 5) % 16, Nat.mod_lt _ (by decide)⟩
  else ⟨(7 * i.toNat) % 16, Nat.mod_lt _ (by decide)⟩

/-- The four rotation amounts of a group (R102). -/
def sSchedule (g : BitVec 2) : Vector Nat 4 :=
  if g = 0 then #v[7, 12, 17, 22]
  else if g = 1 then #v[5, 9, 14, 20]
  else if g = 2 then #v[4, 11, 16, 23]
  else #v[6, 10, 15, 21]

/-- S(i), the left-rotation amount (R102). -/
def sAmount (i : BitVec 6) : Nat := (sSchedule (groupOf i))[i.toNat % 4]

/-- T(i) for the steps 0 to 15 (R104). -/
def tGroup0 : Vector Word 16 :=
  #v[0xd76aa478, 0xe8c7b756, 0x242070db, 0xc1bdceee,
     0xf57c0faf, 0x4787c62a, 0xa8304613, 0xfd469501,
     0x698098d8, 0x8b44f7af, 0xffff5bb1, 0x895cd7be,
     0x6b901122, 0xfd987193, 0xa679438e, 0x49b40821]

/-- T(i) for the steps 16 to 31 (R104). -/
def tGroup1 : Vector Word 16 :=
  #v[0xf61e2562, 0xc040b340, 0x265e5a51, 0xe9b6c7aa,
     0xd62f105d, 0x02441453, 0xd8a1e681, 0xe7d3fbc8,
     0x21e1cde6, 0xc33707d6, 0xf4d50d87, 0x455a14ed,
     0xa9e3e905, 0xfcefa3f8, 0x676f02d9, 0x8d2a4c8a]

/-- T(i) for the steps 32 to 47 (R104). -/
def tGroup2 : Vector Word 16 :=
  #v[0xfffa3942, 0x8771f681, 0x6d9d6122, 0xfde5380c,
     0xa4beea44, 0x4bdecfa9, 0xf6bb4b60, 0xbebfbc70,
     0x289b7ec6, 0xeaa127fa, 0xd4ef3085, 0x04881d05,
     0xd9d4d039, 0xe6db99e5, 0x1fa27cf8, 0xc4ac5665]

/-- T(i) for the steps 48 to 63 (R104). -/
def tGroup3 : Vector Word 16 :=
  #v[0xf4292244, 0x432aff97, 0xab9423a7, 0xfc93a039,
     0x655b59c3, 0x8f0ccc92, 0xffeff47d, 0x85845dd1,
     0x6fa87e4f, 0xfe2ce6e0, 0xa3014314, 0x4e0811a1,
     0xf7537e82, 0xbd3af235, 0x2ad7d2bb, 0xeb86d391]

/-- T(i), the additive constant, from the table of literals (R103, R104). -/
def tConst (i : BitVec 6) : Word :=
  (if groupOf i = 0 then tGroup0
   else if groupOf i = 1 then tGroup1
   else if groupOf i = 2 then tGroup2
   else tGroup3)[i.toNat % 16]

/-! ## Core steps -/

/-- A' = B + rol32(A + F(B, C, D) + BLK[K(i)] + T(i), S(i)), every sum modulo 2^32 (R109). -/
def roundValue (i : BitVec 6) (blk : Vector Word 16) (a b c d : Word) : Word :=
  b + rol32 (a + mix (groupOf i) b c d + blk[kIndex i] + tConst i) (sAmount i)

/-- The round step (R109). -/
def Regs.roundStep (r : Regs) : Regs :=
  { r with
    ra := r.rd, rb := roundValue r.ri r.blk r.ra r.rb r.rc r.rd, rc := r.rb, rd := r.rc,
    ri := r.ri + 1,
    fsm := if r.ri = 63 then .accum else r.fsm }

/-- H <- H + (RA, RB, RC, RD), word by word modulo 2^32 (R110). -/
def Regs.addTuple (r : Regs) : Regs :=
  { r with h := #v[r.h[0] + r.ra, r.h[1] + r.rb, r.h[2] + r.rc, r.h[3] + r.rd] }

/-- Continue (R111), after H has been updated. -/
def Regs.continueFinal (r : Regs) : Regs :=
  match r.cont with
  | .doneBlock => { r with fsm := .idle }
  | .doneFinal => { r with fsm := .idle, dvalid := true }
  | .nextLenOnly => { r with blk := padLenOnly r.len r.blk, cont := .doneFinal }.startCompress
  | .next80Len => { r with blk := pad80Len r.len r.blk, cont := .doneFinal }.startCompress

/-- The accumulate step (R110). -/
def Regs.accumulate (r : Regs) : Regs := r.addTuple.continueFinal

/-- The core's one enabled step (R106); none when FSM = IDLE. -/
def Regs.coreStep (r : Regs) : Regs :=
  match r.fsm with
  | .idle => r
  | .round => r.roundStep
  | .accum => r.accumulate

/-! ## BLOCK -/

/-- What BLOCK does at acceptance (R112). -/
def Regs.acceptBlock (r : Regs) : Regs := { r with cont := .doneBlock }.startCompress

/-- BLOCK (R112): compress the working block as one message block. -/
def execBlock (s : State) : Result := attempt .block Regs.acceptBlock s

end Sys2Proof.Machine
end

