-- ==== Sys2Proof/Machine/Finalizer.lean ====
section
/-! DEFINITION. The FINAL command (41_finalization.md R142). -/

namespace Sys2Proof.Machine

/-- FINAL f (R142): pad and compress the last block, then mark the digest final. -/
def execFinal (filled : BitVec 7) (s : State) : Result :=
  attempt (.final filled) (Regs.acceptFinal filled) s

end Sys2Proof.Machine
end

