-- ==== Sys2Proof/Machine/Control.lean ====
section
/-! DEFINITION. NOP, INIT (42_control_and_readout.md R170, R171) and a write to CMD (R172, R208). -/

namespace Sys2Proof.Machine

/-- NOP (R170): accepted at any time, no state changes. -/
def execNop (s : State) : Result := attempt .nop id s

/-- What INIT does at acceptance (R171). FSM is already IDLE and is not written. -/
def Regs.acceptInit (r : Regs) : Regs :=
  { r with
    h := iv, blk := Vector.replicate 16 0, len := 0, ra := 0, rb := 0, rc := 0, rd := 0, ri := 0,
    cont := .doneBlock, dvalid := false }.clearError

/-- INIT (R171). -/
def execInit (s : State) : Result := attempt .init Regs.acceptInit s

/-- WR CMD (R172, R208 CommandWrite): an illegal word is ILLEGAL_OP (R202); a legal one is its command. -/
def execWrCmd (w : Word) (s : State) : Result :=
  match decodeCommand w with
  | .error _ => takeError .illegalOp s
  | .ok .nop => execNop s
  | .ok .init => execInit s
  | .ok .block => execBlock s
  | .ok (.final f) => execFinal f s

end Sys2Proof.Machine
end

