-- ==== Sys2Proof/Machine/Registers.lean ====
section
/-! DEFINITION. The register accesses other than a write to CMD (42_control_and_readout.md R173-R181). -/

namespace Sys2Proof.Machine

/-- RD CMD (R181): returns 0. -/
def execRdCmd (s : State) : Result := readValue 0 s

/-- RD STATUS (R178). -/
def execRdStatus (s : State) : Result := readValue s.regs.status s

/-- WR STATUS (R180): ignored. -/
def execWrStatus (_w : Word) (s : State) : Result := ignoreWrite s

/-- WR LEN_LO (R173). -/
def execWrLenLo (w : Word) (s : State) : Result := writeUnlessBusy (Regs.setLenLo w) s

/-- RD LEN_LO (R175). -/
def execRdLenLo (s : State) : Result := readValue (lenLo s.regs.len) s

/-- WR LEN_HI (R174). -/
def execWrLenHi (w : Word) (s : State) : Result := writeUnlessBusy (Regs.setLenHi w) s

/-- RD LEN_HI (R175). -/
def execRdLenHi (s : State) : Result := readValue (lenHi s.regs.len) s

/-- RD DIGESTj (R179). -/
def execRdDigest (j : Fin 4) (s : State) : Result := readValue s.regs.h[j] s

/-- WR DIGESTj (R180): ignored. -/
def execWrDigest (_j : Fin 4) (_w : Word) (s : State) : Result := ignoreWrite s

/-- RD RESERVED (R181): returns 0. -/
def execRdReserved (_x : Fin 8) (s : State) : Result := readValue 0 s

/-- WR RESERVED (R180): ignored. -/
def execWrReserved (_x : Fin 8) (_w : Word) (s : State) : Result := ignoreWrite s

/-- WR BLKj (R176). -/
def execWrBlk (j : Fin 16) (w : Word) (s : State) : Result := writeUnlessBusy (Regs.setBlkWord j w) s

/-- RD BLKj (R177). -/
def execRdBlk (j : Fin 16) (s : State) : Result := readValue s.regs.blk[j] s

end Sys2Proof.Machine
end

