-- ==== Sys2Proof/Machine/Dispatch.lean ====
section
/-! DEFINITION. The meaning of every instruction: one arm per row of spec/opcode_table.json. -/

namespace Sys2Proof.Machine

/-- What an instruction does at a state in which rst = 0. -/
def exec (i : Instr) (s : State) : Host.Outcome State Fault Refusal :=
  match i with
  | .nop => Sys2Proof.Machine.execNop s
  | .init => Sys2Proof.Machine.execInit s
  | .block => Sys2Proof.Machine.execBlock s
  | .final filled => Sys2Proof.Machine.execFinal filled s
  | .wrCmd w => Sys2Proof.Machine.execWrCmd w s
  | .rdCmd => Sys2Proof.Machine.execRdCmd s
  | .rdStatus => Sys2Proof.Machine.execRdStatus s
  | .wrStatus w => Sys2Proof.Machine.execWrStatus w s
  | .wrLenLo w => Sys2Proof.Machine.execWrLenLo w s
  | .rdLenLo => Sys2Proof.Machine.execRdLenLo s
  | .wrLenHi w => Sys2Proof.Machine.execWrLenHi w s
  | .rdLenHi => Sys2Proof.Machine.execRdLenHi s
  | .rdDigest j => Sys2Proof.Machine.execRdDigest j s
  | .wrDigest j w => Sys2Proof.Machine.execWrDigest j w s
  | .rdReserved x => Sys2Proof.Machine.execRdReserved x s
  | .wrReserved x w => Sys2Proof.Machine.execWrReserved x w s
  | .wrBlk j w => Sys2Proof.Machine.execWrBlk j w s
  | .rdBlk j => Sys2Proof.Machine.execRdBlk j s
  | .badAccessNarrow we be addr wdata => Sys2Proof.Machine.execBadAccessNarrow we be addr wdata s
  | .badAccessMisaligned we addr wdata => Sys2Proof.Machine.execBadAccessMisaligned we addr wdata s

end Sys2Proof.Machine
end

