-- ==== Sys2Proof/Machine/Agents.lean ====
section
/-! DEFINITION. What each agent does in its turn: the core (40_compression.md R106), the reset line
(70_reset_and_hazards.md R230-R232), the host (20_memory.md R51, R64; 30_encoding.md R89). -/

namespace Sys2Proof.Machine

/-- The core's turn (R106). While rst = 1 the core takes no step (R232). -/
def coreTurn (s : State) : State := if s.rst then s else { s with regs := s.regs.coreStep }

/-- rst driven to a level (R230-R232): every piece of state takes its reset value while rst = 1 and at
its release; rst = 0 where it was 0 already changes nothing (log entry 3). It is no access, so the response
(log entry 4) and the host's record (log entry 17) stay as they are: the model's choice. -/
def driveRst (level : Bool) (s : State) : State :=
  { s with regs := if level || s.rst then Regs.reset else s.regs, rst := level }

/-- The host notes the access and the response it got (log entry 5). -/
def noteExchange (a : Access) (s : State) : State := { s with log := ⟨a, s.reply⟩ :: s.log }

/-- One bus access (R51): decoded and performed; while rst = 1 it has no effect and responds rdata = 0,
err = 0 (R232). -/
def hostAccess (a : Access) (s : State) : Result :=
  if s.rst then .next (noteExchange a { s with reply := { rdata := 0, err := false } })
  else
    match exec (decodeAccess a) s with
    | .next t => .next (noteExchange a t)
    | .fault e => .fault e
    | .refused e => .refused e

/-- One round of POLL (R89): RD STATUS, and again, after a turn of the core, while bit 0 reads 1 (log
entry 6). -/
def hostPoll (s : State) : Result :=
  match hostAccess (.read .status) s with
  | .next t =>
    if t.reply.rdata.getLsbD 0 then .next { t with moves := .core :: .poll :: t.moves } else .next t
  | .fault e => .fault e
  | .refused e => .refused e

/-- One move at the state in which it has been taken off the list. -/
def perform (m : Move) (s : State) : Result :=
  match m with
  | .access a => hostAccess a s
  | .poll => hostPoll s
  | .core => .next (coreTurn s)
  | .rst level => .next (driveRst level s)
  | .hold => .next s

end Sys2Proof.Machine
end

