-- ==== Sys2Proof/Machine/Step.lean ====
section
/-! DEFINITION. One step of the machine (00_scope.md R11): the next move, or, with none pending, the
core's own turn. -/

namespace Sys2Proof.Machine

/-- One step (log entries 1 and 2). -/
def step (s : State) : Host.Outcome State Fault Refusal :=
  match s.moves with
  | [] => .next (coreTurn s)
  | m :: ms => perform m { s with moves := ms }

/-- s with the access of a table word as the host's next move, at a core out of reset (log entry 7), which
the host's interface asks to be ahead of whatever is pending. A word that stands for no access
changes nothing. -/
def State.withFetchWord (s : State) (nbits w : Nat) : State :=
  match fetchAccess nbits w with
  | some a => { s with rst := false, moves := .access a :: s.moves }
  | none => s

end Sys2Proof.Machine
end

