-- ==== Sys2Proof/Machine/Canonical.lean ====
section
/-! DEFINITION. Canonical MD5 as a function on byte lists, which claims compare the core with
(41_finalization.md R151). Only the tables of 40_compression.md R100-R104 are shared with the machine;
the 64 steps are a fold, the padding is on the whole message, the length is a Nat. -/

namespace Sys2Proof.Canonical

/-- The working tuple (A, B, C, D). -/
structure Tuple where
  a : Word
  b : Word
  c : Word
  d : Word
  deriving DecidableEq, Repr

/-- Step i of the 64: (A, B, C, D) = (D, A', B, C) (R109). -/
def stepAt (x : Vector Word 16) (t : Tuple) (i : Nat) : Tuple :=
  { a := t.d
    b := Machine.roundValue (BitVec.ofNat 6 i) x t.a t.b t.c t.d
    c := t.b
    d := t.c }

/-- The first n steps from the digest state h. -/
def steps (h : Vector Word 4) (x : Vector Word 16) (n : Nat) : Tuple :=
  (List.range n).foldl (stepAt x) { a := h[0], b := h[1], c := h[2], d := h[3] }

/-- One compression: 64 steps, and the componentwise sum (R107, R110). -/
def compress (h : Vector Word 4) (x : Vector Word 16) : Vector Word 4 :=
  #v[h[0] + (steps h x 64).a, h[1] + (steps h x 64).b, h[2] + (steps h x 64).c, h[3] + (steps h x 64).d]

/-- The 64-bit little-endian form of n modulo 2^64 (R140, R141). -/
def le64 (n : Nat) : List Byte := (List.range 8).map fun k => BitVec.ofNat 8 (n / 256 ^ k)

/-- How many zero bytes follow the 0x80 byte: the fewest that leave 8 bytes of a block. -/
def zeroCount (n : Nat) : Nat := (119 - n % 64) % 64

/-- The padded message: 0x80, zero bytes, and the bit-length. -/
def pad (m : List Byte) : List Byte :=
  m ++ (0x80 :: (List.replicate (zeroCount m.length) 0 ++ le64 (8 * m.length)))

/-- Block b of a message, in the order of 20_memory.md R56. -/
def blockAt (m : List Byte) (b : Nat) : Vector Word 16 :=
  Machine.blkOfBytes fun n => m.getD (64 * b + n.val) 0

/-- The full blocks of a message, in order. -/
def blocks (m : List Byte) : List (Vector Word 16) := (List.range (m.length / 64)).map (blockAt m)

/-- The digest state after the full blocks of m, from h. -/
def absorb (h : Vector Word 4) (m : List Byte) : Vector Word 4 := (blocks m).foldl compress h

/-- The MD5 digest state of a message. -/
def md5 (m : List Byte) : Vector Word 4 := absorb Machine.iv (pad m)

end Sys2Proof.Canonical
end

