-- ==== Sys2Proof/Machine/HostProgram.lean ====
section
/-! DEFINITION. The host as the spec writes it: the assembler and its pseudo-operations
(30_encoding.md R88, R89), the Digest procedure (42_control_and_readout.md R184), the rendering of a
digest (R182, R183) and the end of a run (R186). The core reads none of this: a program is a list of
moves. -/

namespace Sys2Proof.Machine

/-- A line of a host program. A literal offset of R88 that is aligned names a `Reg`. -/
inductive HostOp where
  | wr (r : Reg) (w : Word)
  | rd (r : Reg)
  | nop
  | init
  | block
  | final (f : BitVec 7)
  | badWr (off : BitVec 7) (be : BitVec 4) (w : Word)
  | badRd (off : BitVec 7) (be : BitVec 4)
  | poll
  | wrlen (n : BitVec 64)
  | loadblk (bytes : Vector Byte 64)
  | rddig
  | hash1 (n : BitVec 6) (bytes : Vector Byte 64)
  deriving DecidableEq, Repr

/-- WRLEN n (R89). -/
def wrlenMoves (n : BitVec 64) : List Move :=
  [.access (.write .lenLo (lenLo n)), .access (.write .lenHi (lenHi n))]

/-- LOADBLK (R89): the 16 words in the byte order of R56. -/
def loadblkMoves (bytes : Vector Byte 64) : List Move :=
  (List.finRange 16).map fun j => .access (.write (.blk j) (blkOfBytes fun n => bytes[n])[j])

/-- RDDIG (R89). -/
def rddigMoves : List Move := (List.finRange 4).map fun j => .access (.read (.digest j))

/-- The first n bytes, then zeros to 64. -/
def keepFirst (n : Nat) (bytes : Vector Byte 64) : Vector Byte 64 :=
  Vector.ofFn fun k : Fin 64 => if k.val < n then bytes[k] else 0

/-- The accesses a line stands for (R88, R89). HASH1 takes n < 64 (R89). R88 gives a BAD WR or BAD RD line
only where its access breaks 20_memory.md R53; that the line is taken for its access all the same where it
does not, a good one, is the model's choice (log entry 18). -/
def HostOp.moves : HostOp → List Move
  | .wr r w => [.access (.write r w)]
  | .rd r => [.access (.read r)]
  | .nop => [.access (encode .nop)]
  | .init => [.access (encode .init)]
  | .block => [.access (encode .block)]
  | .final f => [.access (encode (.final f))]
  | .badWr off be w => [.access { we := true, be := be, addr := off, wdata := w }]
  | .badRd off be => [.access { we := false, be := be, addr := off, wdata := 0 }]
  | .poll => [.poll]
  | .wrlen n => wrlenMoves n
  | .loadblk bytes => loadblkMoves bytes
  | .rddig => rddigMoves
  | .hash1 n bytes =>
    .access (encode .init) :: wrlenMoves (n.setWidth 64) ++
      loadblkMoves (keepFirst n.toNat bytes) ++
      [.access (encode (.final (n.setWidth 7))), .poll] ++ rddigMoves

/-- 64 bytes of a message from byte `at64` on, zeros after its end. -/
def sliceBytes (msg : List Byte) (start : Nat) : Vector Byte 64 :=
  Vector.ofFn fun k : Fin 64 => msg.getD (start + k.val) 0

/-- How many full blocks go by BLOCK (R184): a full last block goes by BLOCK too where `lastByBlock`
says so, and otherwise by FINAL 64. -/
def blocksSent (lastByBlock : Bool) (n : Nat) : Nat := if lastByBlock then n / 64 else (n - 1) / 64

/-- Digest(source), up to the readout (R184): INIT, the exact length, each full block by BLOCK and POLL,
the last bytes by FINAL and POLL, and RDDIG. R184 lets the host start by INIT or by reset: that this
program starts by INIT, and loads zeros for the bytes that do not matter, is the model's choice (log entry
15); `digestMoves` has both starts. -/
def digestOps (lastByBlock : Bool) (msg : List Byte) : List HostOp :=
  [.init, .wrlen (BitVec.ofNat 64 msg.length)] ++
    (List.range (blocksSent lastByBlock msg.length)).flatMap (fun b =>
      [.loadblk (sliceBytes msg (64 * b)), .block, .poll]) ++
    [.loadblk (sliceBytes msg (64 * blocksSent lastByBlock msg.length)),
      .final (BitVec.ofNat 7 (msg.length - 64 * blocksSent lastByBlock msg.length)), .poll, .rddig]

/-- A host program as the moves of the machine. -/
def programMoves (ops : List HostOp) : List Move := ops.flatMap HostOp.moves

/-- The two ways to start a hash (R184, R187). -/
inductive HostStart where
  | init
  | reset
  deriving DecidableEq, Repr

/-- Digest(source) with either start (R184): a reset is rst asserted and released, in place of INIT. -/
def digestMoves (start : HostStart) (lastByBlock : Bool) (msg : List Byte) : List Move :=
  match start with
  | .init => programMoves (digestOps lastByBlock msg)
  | .reset => .rst true :: .rst false :: programMoves (digestOps lastByBlock msg).tail

/-- One hexadecimal digit (R183). -/
def hexDigit (n : Nat) : Char := "0123456789abcdef".toList.getD n '0'

/-- hex2 (R183): the high nibble first. -/
def hex2 (b : Byte) : List Char := [hexDigit (b.toNat / 16), hexDigit (b.toNat % 16)]

/-- The digest as its 16 bytes (R182). -/
def digestBytes (h : Vector Word 4) : List Byte := (List.finRange 16).map (digestByte h)

/-- The digest as 32 characters (R183). -/
def renderDigest (h : Vector Word 4) : String := String.ofList ((digestBytes h).flatMap hex2)

/-- What the host has read since a STATUS read that showed BUSY = 0 and DVALID = 1: DIGEST0 to DIGEST2,
each the value read last (R186; log entry 12). -/
structure Readout where
  d0 : Option Word
  d1 : Option Word
  d2 : Option Word
  deriving DecidableEq, Repr

/-- The first DIGEST3 read that ends a run (R186), over the accesses in the order they were made. -/
def findResult : Option Readout → List Exchange → Option (Vector Word 4)
  | _, [] => none
  | none, x :: xs =>
    if x.access.good && decodeAccess x.access == .rdStatus &&
        !x.reply.rdata.getLsbD 0 && x.reply.rdata.getLsbD 1 then
      findResult (some { d0 := none, d1 := none, d2 := none }) xs
    else findResult none xs
  | some o, x :: xs =>
    if decodeAccess x.access = .rdDigest 0 then findResult (some { o with d0 := some x.reply.rdata }) xs
    else if decodeAccess x.access = .rdDigest 1 then findResult (some { o with d1 := some x.reply.rdata }) xs
    else if decodeAccess x.access = .rdDigest 2 then findResult (some { o with d2 := some x.reply.rdata }) xs
    else if decodeAccess x.access = .rdDigest 3 then
      match o.d0, o.d1, o.d2 with
      | some a, some b, some c => some #v[a, b, c, x.reply.rdata]
      | _, _, _ => findResult (some o) xs
    else findResult (some o) xs

/-- The result of the host's hash run, if it has ended (R186): the first readout in the whole record since
State.reset. R186 does not say where a run begins (log entry 16), nor anything about a run cut short by
reset (log entry 17): a later hash does not replace the result, and a reset between two reads of one
readout does not part them. Both are the model's choice. -/
def runResult (s : State) : Option (Vector Word 4) := findResult none s.log.reverse

end Sys2Proof.Machine
end

