-- ==== Sys2Proof/Config.lean ====
section
/-! DEFINITION. The open parameters of 00_scope.md R6: constants without a value, so that no claim can
rest on one (log entry 11). -/

namespace Sys2Proof

/-- Which 128-byte window of the platform's address space holds the registers of instance k. A
permutation, so that each instance has its own window (60_exceptions.md R215); any choice of INSTANCES
different windows extends to one. -/
opaque Config.windowIndex : Equiv.Perm Nat

/-- BASE of instance k: any 128-byte-aligned address (R6, R63). -/
def Config.base (k : Nat) : Nat := 128 * Config.windowIndex k

/-- INSTANCES less one. -/
opaque Config.otherInstances : Nat

/-- INSTANCES: the number of independent cores on the platform, at least 1 (R6, R215). -/
def Config.instances : Nat := Config.otherInstances + 1

/-- CYCLES_PER_STEP less one. -/
opaque Config.extraCyclesPerStep : Nat

/-- CYCLES_PER_STEP: the clock cycles one core step takes, at least 1 (R6, R240). No step of the
machine reads it. -/
def Config.cyclesPerStep : Nat := Config.extraCyclesPerStep + 1

end Sys2Proof
end

