-- ==== Sys2Proof/Machine/Platform.lean ====
section
/-! DEFINITION. The platform around the core: the window at BASE (00_scope.md R6, R10; 20_memory.md R50,
R63), several independent cores (60_exceptions.md R215), step counts and cycles (70_reset_and_hazards.md
R240). -/

namespace Sys2Proof.Machine

/-- The offset the platform drives for an address: address - BASE inside the window of instance k, and
nothing outside it, where the core is not selected (R50, R63). -/
def windowOffset (k address : Nat) : Option (BitVec 7) :=
  if Config.base k ≤ address ∧ address < Config.base k + 128 then
    some (BitVec.ofNat 7 (address - Config.base k))
  else none

/-- MemRead(address, 4) (R10). -/
def memRead (k address : Nat) : Option Access :=
  (windowOffset k address).map fun off => { we := false, be := 0xF, addr := off, wdata := 0 }

/-- MemWrite(address, 4, v) (R10). -/
def memWrite (k address : Nat) (v : Word) : Option Access :=
  (windowOffset k address).map fun off => { we := true, be := 0xF, addr := off, wdata := v }

/-- The core, of n, whose window holds an address, with the offset in it (R50, R63, R215). -/
def route (n address : Nat) : Option (Fin n × BitVec 7) :=
  (List.finRange n).findSome? fun k : Fin n => (windowOffset k.val address).map fun off => (k, off)

/-- A platform of n cores, each with its own state (R215). -/
structure Platform (n : Nat) where
  cores : Vector State n
  deriving DecidableEq, Repr

/-- Every core after reset. -/
def Platform.reset (n : Nat) : Platform n := { cores := Vector.replicate n State.reset }

/-- The platform of R6: INSTANCES cores. -/
def platformAtReset : Platform Config.instances := .reset _

/-- One step of core k. -/
def Platform.step {n : Nat} (k : Fin n) (p : Platform n) : Host.Outcome (Platform n) Fault Refusal :=
  match Machine.step p.cores[k] with
  | .next t => .next { cores := p.cores.set k.val t }
  | .fault e => .fault e
  | .refused e => .refused e

/-- A bus access to a platform address, of either direction and any byte enables: it becomes the last
pending move of the one core whose window holds the address, behind those presented before it, so that
accesses take effect in issue order (20_memory.md R64, R65). At any other address no core is selected
(R50). -/
def Platform.present {n : Nat} (we : Bool) (be : BitVec 4) (address : Nat) (wdata : Word)
    (p : Platform n) : Platform n :=
  match route n address with
  | some (k, off) =>
    let s := p.cores[k]
    let a : Access := { we := we, be := be, addr := off, wdata := wdata }
    { cores := p.cores.set k.val { s with moves := s.moves ++ [.access a] } }
  | none => p

/-- The core steps from the acceptance of a command to BUSY = 0 (R240). FINAL with FILLED 65 to 127 is never
accepted (60_exceptions.md R205) and has no row in R240: its 130 here is the model's choice (log entry 19). -/
def coreStepCount : Command → Nat
  | .nop => 0
  | .init => 0
  | .block => 65
  | .final f => if f.toNat ≤ 55 then 65 else 130

/-- The clock cycles of that many core steps (R240): no step of the machine reads this. -/
def commandCycles (c : Command) : Nat := coreStepCount c * Config.cyclesPerStep

end Sys2Proof.Machine
end

