-- ==== Sys2Proof/Safety.lean ====
section
/-! DEFINITION. What claims are stated in terms of: the invariants of the state, a core that can take a
command, what the core has absorbed, and the host's duties (42_control_and_readout.md R185, R187). -/

namespace Sys2Proof

/-- Accesses that change no register whatever the state, but for the error record: reads, NOP, ignored
writes and bad accesses (R54, R55, R62, R170, R180, R207). -/
def Instr.passive : Instr → Bool
  | .nop => true
  | .init => false
  | .block => false
  | .final _ => false
  | .wrCmd w => decide (w = 0) || !legalCommand w
  | .rdCmd => true
  | .rdStatus => true
  | .wrStatus _ => true
  | .wrLenLo _ => false
  | .rdLenLo => true
  | .wrLenHi _ => false
  | .rdLenHi => true
  | .rdDigest _ => true
  | .wrDigest _ _ => true
  | .rdReserved _ => true
  | .wrReserved _ _ => true
  | .wrBlk _ _ => false
  | .rdBlk _ => true
  | .badAccessNarrow _ _ _ _ => true
  | .badAccessMisaligned _ _ _ => true

end Sys2Proof

namespace Sys2Proof.Machine

/-! ## Invariants -/

/-- The relations between the fields of one core. -/
structure Regs.Inv (r : Regs) : Prop where
  /-- RI is 0 outside a compression's 64 round steps (10_state.md R26, 60_exceptions.md R214). -/
  indexZero : r.fsm ≠ .round → r.ri = 0
  /-- DVALID = 1 exactly when the last compression of a FINAL has accumulated (R29, R111). -/
  digestFinal : r.dvalid = true ↔ (r.fsm = .idle ∧ r.cont = .doneFinal)
  /-- An idle core has no further compression to start (R28, R111). -/
  idleDone : r.fsm = .idle → (r.cont = .doneBlock ∨ r.cont = .doneFinal)
  /-- ECODE is 0 exactly while no error is recorded (R30, R201, R204). -/
  errorRecord : r.cerr = true ↔ r.ecode ≠ .none

/-- The invariant of one core at its ports. -/
structure State.Inv (s : State) : Prop where
  regs : s.regs.Inv
  /-- While rst = 1 every piece of state has its reset value (R230). -/
  inReset : s.rst = true → s.regs = Regs.reset

/-! ## The host's side -/

/-- A core that can take BLOCK or FINAL: out of reset, idle, and not finalized (R208). -/
structure State.Ready (s : State) : Prop where
  outOfReset : s.rst = false
  idle : s.regs.fsm = .idle
  open_ : s.regs.dvalid = false

/-- No error has been recorded since INIT or reset: what a claim about a run must also read (R186). -/
def State.clean (s : State) : Bool := !s.regs.cerr

/-- The digest state is that of the whole blocks m, sent since INIT or reset (R113, R151). -/
structure Absorbed (m : List Byte) (r : Regs) : Prop where
  whole : m.length % 64 = 0
  state : r.h = Canonical.absorb iv m

/-- The working block holds the message bytes in its first bytes (R142, R185). -/
def Holds (tail : List Byte) (r : Regs) : Prop :=
  ∀ n : Fin 64, n.val < tail.length → blkByte r.blk n = tail.getD n.val 0

/-- LEN is the exact byte length n (R152, R185). -/
def Declares (n : Nat) (r : Regs) : Prop := r.len = BitVec.ofNat 64 n

/-! ## Runs -/

/-- k steps of the machine; it is Host.Core.run of the core. -/
def run : Nat → State → Result
  | 0, s => .next s
  | k + 1, s =>
    match step s with
    | .next t => run k t
    | .fault e => .fault e
    | .refused e => .refused e

/-- The next step performs an accepted INIT (R171, R208). -/
def State.acceptsInit (s : State) : Prop :=
  s.rst = false ∧ s.regs.busy = false ∧
    ∃ a ms w, s.moves = .access a :: ms ∧ decodeAccess a = .wrCmd w ∧ decodeCommand w = .ok .init

/-- The next step is a reset or its release (R230). -/
def State.resets (s : State) : Prop :=
  ∃ level ms, s.moves = .rst level :: ms ∧ (level = true ∨ s.rst = true)

/-- The next step is the accumulate step (R110). -/
def State.accumulates (s : State) : Prop :=
  s.rst = false ∧ s.regs.fsm = .accum ∧ (s.moves = [] ∨ ∃ ms, s.moves = .core :: ms)

/-- A turn of the core, or an access that is passive: what may fall anywhere in a compression without
changing its outcome (R189). -/
def Move.neutral : Move → Bool
  | .access a => (decodeAccess a).passive
  | .poll => false
  | .core => true
  | .rst _ => false
  | .hold => true

end Sys2Proof.Machine
end

