-- ==== Sys2Proof/Certificates/Slice0/Obligations.lean ====
section
/-! DEFINITION. The statements for the provers, from the numbered rules of spec/. A state written
`{ s with regs := …, reply := … }` says the whole frame: rst, the pending moves, the host's record and
every register not named are unchanged. -/

open Sys2Proof Sys2Proof.Machine

/-! ## Encoding -/

/-- Command words written out bit by bit from 30_encoding.md R80, R81, R87 and 95_test_vectors.md V50 to
V53 decode as the tables say, the reserved ones to a rejection. -/
def Obligations.CommandWordsDecodeAsTabled : Prop :=
  decodeCommand 0b00000000000000000000000000000000 = .ok .nop ∧
  decodeCommand 0b00000000000000000000000000000001 = .ok .init ∧
  decodeCommand 0b00000000000000000000000000000010 = .ok .block ∧
  decodeCommand 0b00000000000000000000001100000011 = .ok (.final 3) ∧
  decodeCommand 0b00000000000000000100000000000011 = .ok (.final 64) ∧
  decodeCommand 0b00000000000000000111111100000011 = .ok (.final 127) ∧
  decodeCommand 0x00000004 = .error .reservedOp ∧
  decodeCommand 0x0000000F = .error .reservedOp ∧
  decodeCommand 0x00000010 = .error .reservedBit ∧
  decodeCommand 0x00008003 = .error .reservedBit ∧
  decodeCommand 0x80000000 = .error .reservedBit ∧
  decodeCommand 0x00000100 = .error .filledWithoutFinal ∧
  decodeCommand 0x00000102 = .error .filledWithoutFinal

/-- Access values written out bit by bit from 20_memory.md R52 and 30_encoding.md R86 (we, be[3:0],
addr[6:0]) decode to their rows. -/
def Obligations.AccessWordsDecodeAsTabled : Prop :=
  decodeAccess (.ofValue 0b1_1111_0000000 7) = .wrCmd 7 ∧
  decodeAccess (.ofValue 0b0_1111_0000000 0) = .rdCmd ∧
  decodeAccess (.ofValue 0b0_1111_0000100 0) = .rdStatus ∧
  decodeAccess (.ofValue 0b1_1111_0001000 7) = .wrLenLo 7 ∧
  decodeAccess (.ofValue 0b0_1111_0001100 0) = .rdLenHi ∧
  decodeAccess (.ofValue 0b0_1111_0011100 0) = .rdDigest 3 ∧
  decodeAccess (.ofValue 0b1_1111_0010000 7) = .wrDigest 0 7 ∧
  decodeAccess (.ofValue 0b0_1111_0111100 0) = .rdReserved 7 ∧
  decodeAccess (.ofValue 0b1_1111_0100000 7) = .wrReserved 0 7 ∧
  decodeAccess (.ofValue 0b1_1111_1111000 7) = .wrBlk 14 7 ∧
  decodeAccess (.ofValue 0b0_1111_1000000 0) = .rdBlk 0 ∧
  decodeAccess (.ofValue 0b1_0011_1000000 7) = .badAccessNarrow true 0b0011 0x40 7 ∧
  decodeAccess (.ofValue 0b0_1111_0000110 0) = .badAccessMisaligned false 0x06 0

/-- A command word decodes to a command exactly if it is that command's canonical word (R87): exactly the
words NOP, INIT, BLOCK and FINAL f for f = 0 to 127 are legal. -/
def Obligations.CommandDecodesIffCanonicalWord : Prop :=
  ∀ (c : Command) (w : Word), decodeCommand w = .ok c ↔ w = c.encode

/-- The legality test of R83, and the case of R85 that a legal word falls under. -/
def Obligations.CommandLegalityTest : Prop :=
  ∀ w : Word,
    ((w.extractLsb' 0 4).toNat ≤ 3 ∧ w &&& 0xFFFF80F0#32 = 0 ∧
        (w.extractLsb' 0 4 = 3 ∨ w.extractLsb' 8 7 = 0) →
      decodeCommand w = .ok
        (if w.extractLsb' 0 4 = 0 then .nop else if w.extractLsb' 0 4 = 1 then .init
         else if w.extractLsb' 0 4 = 2 then .block else .final (w.extractLsb' 8 7))) ∧
    (¬ ((w.extractLsb' 0 4).toNat ≤ 3 ∧ w &&& 0xFFFF80F0#32 = 0 ∧
        (w.extractLsb' 0 4 = 3 ∨ w.extractLsb' 8 7 = 0)) →
      ∃ e, decodeCommand w = .error e)

/-- Decode and encode agree: every well-formed bus row decodes from its access, with every operand at
every value; a command row's access is the write of its word to CMD, and that word decodes to it. That a
narrow access at a misaligned offset is the narrow row's, and not the misaligned row's, is the model's own
choice (log entry 8). -/
def Obligations.EncodedInstructionDecodes : Prop :=
  ∀ i : Instr, i.wf = true →
    (i.isCommand = false → decodeAccess (encode i) = i) ∧
    (i.isCommand = true →
      ∃ w c, decodeAccess (encode i) = .wrCmd w ∧ decodeCommand w = .ok c ∧ c.toInstr = i)

/-- Every access has a well-formed row, and the row's access is the access itself, but for the wdata of a
good read, which no rule reads: that the encoder lays down wdata 0 there is the model's own choice (log
entry 9), and so is the row of an access that is narrow and misaligned (log entry 8). -/
def Obligations.DecodedAccessReencodes : Prop :=
  ∀ a : Access, (decodeAccess a).wf = true ∧
    encode (decodeAccess a) = if a.good && !a.we then { a with wdata := 0 } else a

/-- The accesses to the window of instance k are its 128 offsets from BASE, in order, and no other address
selects the core (R6, R10, R50, R63). That such a read carries wdata 0 is the model's own choice (log entry
9), and so is a BASE of its own for each instance (log entry 11). -/
def Obligations.WindowIsBasePlusOffset : Prop :=
  ∀ k address : Nat,
    (∀ off : BitVec 7, address = Config.base k + off.toNat →
      memRead k address = some { we := false, be := 0xF, addr := off, wdata := 0 } ∧
      ∀ v : Word, memWrite k address v = some { we := true, be := 0xF, addr := off, wdata := v }) ∧
    ((∀ off : BitVec 7, address ≠ Config.base k + off.toNat) →
      memRead k address = none ∧ ∀ v : Word, memWrite k address v = none) ∧
    Config.base k % 128 = 0

/-! ## Byte order and arithmetic -/

/-- rol32 by 1 to 31 is a circular left rotation: bit k of the result is bit k - s modulo 32 (R8). -/
def Obligations.RolIsCircular : Prop :=
  ∀ (v : Word) (s k : Nat), 1 ≤ s → s ≤ 31 → k < 32 →
    (rol32 v s).getLsbD k = v.getLsbD ((k + 32 - s) % 32)

/-- Loading bytes little-endian as R56 writes it puts byte n at BLKB[n]. -/
def Obligations.BlockBytesLittleEndian : Prop :=
  ∀ (m : Fin 64 → Byte) (blk : Vector Word 16),
    (∀ j : Fin 16, blk[j] =
      (m ⟨4 * j.val, by omega⟩).setWidth 32 ||| (m ⟨4 * j.val + 1, by omega⟩).setWidth 32 <<< 8 |||
      (m ⟨4 * j.val + 2, by omega⟩).setWidth 32 <<< 16 ||| (m ⟨4 * j.val + 3, by omega⟩).setWidth 32 <<< 24) →
    ∀ n : Fin 64, blkByte blk n = m n

/-- Digest byte 4j + k is H[j][8k+7:8k] (R57, R182). -/
def Obligations.DigestBytesLittleEndian : Prop :=
  ∀ (h : Vector Word 4) (j k : Fin 4),
    digestByte h ⟨4 * j.val + k.val, by omega⟩ = (h[j] >>> (8 * k.val)).setWidth 8

/-- BITLEN is (LEN * 8) mod 2^64 (R140), and PutLen writes it, low byte first, to bytes 56 to 63 of the
block, that is BLK[14] and BLK[15], and leaves the other fourteen words (R58, R141). -/
def Obligations.PutLenWritesBitLength : Prop :=
  ∀ (len : BitVec 64) (blk : Vector Word 16),
    (bitLen len).toNat = (len.toNat * 8) % 2 ^ 64 ∧
    (∀ (n : Fin 64) (k : Fin 8), n.val = 56 + k.val →
      (blkByte (putLen len blk) n).toNat = (len.toNat * 8) % 2 ^ 64 / 256 ^ k.val % 256) ∧
    (putLen len blk)[14] = (bitLen len).extractLsb' 0 32 ∧
    (putLen len blk)[15] = (bitLen len).extractLsb' 32 32 ∧
    ∀ j : Fin 16, j.val < 14 → (putLen len blk)[j] = blk[j]

/-! ## Reset -/

/-- Every piece of architectural state has the reset value of R39, and STATUS reads 0. -/
def Obligations.ResetValues : Prop :=
  State.reset.regs.h = #v[0x67452301, 0xefcdab89, 0x98badcfe, 0x10325476] ∧
  (∀ j : Fin 16, State.reset.regs.blk[j] = 0) ∧ State.reset.regs.len = 0 ∧
  State.reset.regs.ra = 0 ∧ State.reset.regs.rb = 0 ∧ State.reset.regs.rc = 0 ∧ State.reset.regs.rd = 0 ∧
  State.reset.regs.ri = 0 ∧ State.reset.regs.fsm = .idle ∧ State.reset.regs.cont = .doneBlock ∧
  State.reset.regs.dvalid = false ∧ State.reset.regs.cerr = false ∧ State.reset.regs.ecode = .none ∧
  State.reset.regs.status = 0

/-- rst driven to 1, from any state, in the middle of a compression too, and its release, put every piece
of architectural state to its reset value; busy_o and dvalid_o are then 0 (R230, R231). That rst leaves
rdata and err as the latest access left them is the model's own choice (log entry 4), as are the list of
moves (log entry 1) and the host's record, which rst leaves too (log entries 5 and 17). -/
def Obligations.ResetLineLoadsResetValues : Prop :=
  ∀ (s : State) (level : Bool) (ms : List Move), s.moves = .rst level :: ms →
    (level = true ∨ s.rst = true) →
    step s = .next { s with regs := Regs.reset, rst := level, moves := ms } ∧
    State.busyOut { s with regs := Regs.reset, rst := level, moves := ms } = false ∧
    State.dvalidOut { s with regs := Regs.reset, rst := level, moves := ms } = false

/-- While rst = 1 an access has no effect and responds rdata = 0, err = 0, and the core takes no step
(R232). The host's record of the exchange is the model's own (log entry 5), and so is that a turn of the
core leaves rdata and err as they were (log entry 4). -/
def Obligations.NothingHappensUnderReset : Prop :=
  ∀ s : State, s.rst = true →
    (∀ a ms, s.moves = .access a :: ms →
      step s = .next { s with moves := ms, reply := ⟨0, false⟩, log := ⟨a, ⟨0, false⟩⟩ :: s.log }) ∧
    (∀ ms, s.moves = .core :: ms → step s = .next { s with moves := ms }) ∧
    (s.moves = [] → step s = .next s)

/-! ## Commands -/

/-- NOP completes from every state, busy and finalized ones too, and changes no register (R170). -/
def Obligations.NopCompletes : Prop :=
  ∀ s : State, exec .nop s = .next { s with reply := ⟨0, false⟩ }

/-- INIT on an idle core completes, and leaves exactly the state after reset (R171, R233). -/
def Obligations.InitEqualsReset : Prop :=
  ∀ s : State, s.regs.fsm = .idle →
    exec .init s = .next { s with regs := Regs.reset, reply := ⟨0, false⟩ }

/-- BLOCK on an idle core with DVALID = 0 completes: CONT is DONE_BLOCK, the working tuple is H, RI is 0,
FSM is ROUND, and nothing else changes (R112, R108). -/
def Obligations.BlockStartsCompression : Prop :=
  ∀ s : State, s.regs.fsm = .idle → s.regs.dvalid = false →
    exec .block s = .next
      { s with
        regs := { s.regs with
          cont := .doneBlock, ra := s.regs.h[0], rb := s.regs.h[1], rc := s.regs.h[2], rd := s.regs.h[3],
          ri := 0, fsm := .round }
        reply := ⟨0, false⟩ }

/-- FINAL f with f < 56 completes: the message bytes stay, 0x80, zeros to byte 55, BITLEN in bytes 56 to
63, CONT DONE_FINAL, and a compression starts; nothing else changes (R142, R143). -/
def Obligations.FinalBuildsOneBlock : Prop :=
  ∀ (s : State) (f : BitVec 7), s.regs.fsm = .idle → s.regs.dvalid = false → f.toNat < 56 →
    ∃ b : Vector Word 16,
      exec (.final f) s = .next
        { s with
          regs := { s.regs with
            blk := b, cont := .doneFinal, ra := s.regs.h[0], rb := s.regs.h[1], rc := s.regs.h[2],
            rd := s.regs.h[3], ri := 0, fsm := .round }
          reply := ⟨0, false⟩ } ∧
      ∀ n : Fin 64,
        (n.val < f.toNat → blkByte b n = blkByte s.regs.blk n) ∧
        (n.val = f.toNat → blkByte b n = 0x80) ∧
        (f.toNat < n.val → n.val < 56 → blkByte b n = 0x00) ∧
        (56 ≤ n.val → (blkByte b n).toNat =
          (s.regs.len.toNat * 8) % 2 ^ 64 / 256 ^ (n.val - 56) % 256)

/-- FINAL f with 56 <= f <= 63 completes: the message bytes stay, 0x80, zeros to byte 63, CONT
NEXT_LENONLY, and a compression starts; nothing else changes (R142, R144). -/
def Obligations.FinalBuildsFirstOfTwoBlocks : Prop :=
  ∀ (s : State) (f : BitVec 7), s.regs.fsm = .idle → s.regs.dvalid = false →
    56 ≤ f.toNat → f.toNat ≤ 63 →
    ∃ b : Vector Word 16,
      exec (.final f) s = .next
        { s with
          regs := { s.regs with
            blk := b, cont := .nextLenOnly, ra := s.regs.h[0], rb := s.regs.h[1], rc := s.regs.h[2],
            rd := s.regs.h[3], ri := 0, fsm := .round }
          reply := ⟨0, false⟩ } ∧
      ∀ n : Fin 64,
        (n.val < f.toNat → blkByte b n = blkByte s.regs.blk n) ∧
        (n.val = f.toNat → blkByte b n = 0x80) ∧
        (f.toNat < n.val → blkByte b n = 0x00)

/-- FINAL 64 completes: the block is left unchanged, CONT is NEXT_80LEN, and a compression starts; nothing
else changes (R142, R145). -/
def Obligations.FinalKeepsFullBlock : Prop :=
  ∀ s : State, s.regs.fsm = .idle → s.regs.dvalid = false →
    exec (.final 64) s = .next
      { s with
        regs := { s.regs with
          cont := .next80Len, ra := s.regs.h[0], rb := s.regs.h[1], rc := s.regs.h[2], rd := s.regs.h[3],
          ri := 0, fsm := .round }
        reply := ⟨0, false⟩ }

/-- A legal word written to CMD performs its command, whatever the state (R172); and it completes with that
command's own effect wherever the command's checks pass. -/
def Obligations.WriteCmdPerformsCommand : Prop :=
  ∀ (s : State) (w : Word) (c : Command), decodeCommand w = .ok c →
    exec (.wrCmd w) s = exec c.toInstr s ∧
    ((c = .nop ∨ (s.regs.fsm = .idle ∧ (c = .init ∨
        (s.regs.dvalid = false ∧ (c = .block ∨ ∃ f, c = .final f ∧ f.toNat ≤ 64))))) →
      ∃ t, exec (.wrCmd w) s = .next t ∧ t.reply = ⟨0, false⟩ ∧
        (c ≠ .init → t.regs.cerr = s.regs.cerr ∧ t.regs.ecode = s.regs.ecode ∧ t.regs.h = s.regs.h) ∧
        (c = .nop → t.regs = s.regs) ∧ (c = .init → t.regs = Regs.reset) ∧
        (c = .block ∨ (∃ f, c = .final f) → t.regs.fsm = .round ∧ t.regs.ri = 0))

/-! ## Refusals -/

/-- RecordError (R204): the first code is kept, CERR becomes 1, and nothing else changes. -/
def Obligations.FirstErrorIsKept : Prop :=
  ∀ (r : Regs) (e : ErrorCode),
    (r.cerr = false → r.recordError e = { r with cerr := true, ecode := e }) ∧
    (r.cerr = true → r.recordError e = r)

/-- An illegal word written to CMD records ILLEGAL_OP and does nothing else, whatever BUSY and DVALID are;
the bus responds err = 0 (R202). -/
def Obligations.IllegalCommandRefused : Prop :=
  ∀ (s : State) (w : Word), legalCommand w = false →
    exec (.wrCmd w) s = .next { s with regs := s.regs.recordError .illegalOp, reply := ⟨0, false⟩ }

/-- While BUSY = 1, INIT, BLOCK, FINAL with any FILLED, and writes to LEN_LO, LEN_HI and BLKj record BUSY
and do nothing else; the bus responds err = 0 (R203). -/
def Obligations.BusyRefusesWrites : Prop :=
  ∀ (s : State) (f : BitVec 7) (j : Fin 16) (w : Word) (i : Instr), s.regs.fsm ≠ .idle →
    (i = .init ∨ i = .block ∨ i = .final f ∨ i = .wrLenLo w ∨ i = .wrLenHi w ∨ i = .wrBlk j w) →
    exec i s = .next { s with regs := s.regs.recordError .busy, reply := ⟨0, false⟩ }

/-- BLOCK and FINAL, with any FILLED, on an idle core with DVALID = 1 record SEQUENCE and do nothing else
(R206). -/
def Obligations.FinalizedCoreRefusesCompression : Prop :=
  ∀ (s : State) (f : BitVec 7), s.regs.fsm = .idle → s.regs.dvalid = true →
    exec .block s = .next { s with regs := s.regs.recordError .sequence, reply := ⟨0, false⟩ } ∧
    exec (.final f) s = .next { s with regs := s.regs.recordError .sequence, reply := ⟨0, false⟩ }

/-- FINAL with FILLED 65 to 127 that passes the BUSY and SEQUENCE checks records BAD_FILLED and does
nothing else (R205). -/
def Obligations.BadFilledRefused : Prop :=
  ∀ (s : State) (f : BitVec 7), s.regs.fsm = .idle → s.regs.dvalid = false → 64 < f.toNat →
    exec (.final f) s = .next { s with regs := s.regs.recordError .badFilled, reply := ⟨0, false⟩ }

/-- Both BAD ACCESS rows record BAD_ACCESS, respond err = 1 and rdata = 0, and do nothing else, whatever
the offset, the direction and the data (R207). -/
def Obligations.BadAccessRecorded : Prop :=
  ∀ (s : State) (we : Bool) (be : BitVec 4) (addr : BitVec 7) (wdata : Word),
    exec (.badAccessNarrow we be addr wdata) s =
      .next { s with regs := s.regs.recordError .badAccess, reply := ⟨0, true⟩ } ∧
    exec (.badAccessMisaligned we addr wdata) s =
      .next { s with regs := s.regs.recordError .badAccess, reply := ⟨0, true⟩ }

/-- An access that is not a full word at an aligned offset, whatever register or command word it carries,
records BAD_ACCESS, responds err = 1 and rdata = 0, and does nothing else (R207); every other access
responds err = 0, a refused one too (R53). -/
def Obligations.ErrExactlyOnBadAccess : Prop :=
  ∀ (s : State) (a : Access),
    (a.be ≠ 0b1111 ∨ a.addr.extractLsb' 0 2 ≠ 0b00 →
      exec (decodeAccess a) s =
        .next { s with regs := s.regs.recordError .badAccess, reply := ⟨0, true⟩ }) ∧
    (a.be = 0b1111 → a.addr.extractLsb' 0 2 = 0b00 →
      ∃ t, exec (decodeAccess a) s = .next t ∧ t.reply.err = false)

/-! ## Register accesses -/

/-- On an idle core a write to LEN_LO or LEN_HI completes, replaces that half of LEN and nothing else (R60,
R173, R174). -/
def Obligations.LengthWritesReplaceOneHalf : Prop :=
  ∀ (s : State) (w : Word), s.regs.fsm = .idle →
    exec (.wrLenLo w) s = .next
      { s with
        regs := { s.regs with len := (s.regs.len &&& 0xFFFFFFFF00000000#64) ||| w.setWidth 64 }
        reply := ⟨0, false⟩ } ∧
    exec (.wrLenHi w) s = .next
      { s with
        regs := { s.regs with len := (s.regs.len &&& 0x00000000FFFFFFFF#64) ||| (w.setWidth 64 <<< 32) }
        reply := ⟨0, false⟩ }

/-- On an idle core a write to BLKj completes: BLKj becomes w, so bytes 4j to 4j+3 are w's bytes, low
first, and every other byte of the block and every other register stay (R176, R56). -/
def Obligations.BlockWordWriteSetsFourBytes : Prop :=
  ∀ (s : State) (j : Fin 16) (w : Word), s.regs.fsm = .idle →
    ∃ b : Vector Word 16,
      exec (.wrBlk j w) s = .next { s with regs := { s.regs with blk := b }, reply := ⟨0, false⟩ } ∧
      b[j] = w ∧
      ∀ n : Fin 64,
        (n.val / 4 = j.val → blkByte b n = (w >>> (8 * (n.val % 4))).setWidth 8) ∧
        (n.val / 4 ≠ j.val → blkByte b n = blkByte s.regs.blk n)

/-- Reads of LEN_LO, LEN_HI, DIGESTj and BLKj complete in every state, answer the register as it stands,
and change nothing (R175, R177, R179, R62). -/
def Obligations.RegisterReadsAnswerTheRegister : Prop :=
  ∀ (s : State) (j : Fin 4) (k : Fin 16),
    exec .rdLenLo s = .next { s with reply := ⟨s.regs.len.setWidth 32, false⟩ } ∧
    exec .rdLenHi s = .next { s with reply := ⟨(s.regs.len >>> 32).setWidth 32, false⟩ } ∧
    exec (.rdDigest j) s = .next { s with reply := ⟨s.regs.h[j], false⟩ } ∧
    exec (.rdBlk k) s = .next { s with reply := ⟨s.regs.blk[k], false⟩ }

/-- A read of STATUS completes in every state, changes nothing, and answers the fields of R33 at their
bits, the reserved bits 0; busy_o and dvalid_o are its bits 0 and 1 (R178, R33, R50). -/
def Obligations.StatusReadAnswersFields : Prop :=
  ∀ s : State, ∃ v : Word,
    exec .rdStatus s = .next { s with reply := ⟨v, false⟩ } ∧
    (v.getLsbD 0 = true ↔ s.regs.fsm ≠ .idle) ∧ v.getLsbD 1 = s.regs.dvalid ∧
    v.getLsbD 2 = s.regs.cerr ∧ v.getLsbD 3 = false ∧
    (v.extractLsb' 4 4).toNat = (match s.regs.ecode with
      | .none => 0 | .illegalOp => 1 | .busy => 2 | .badFilled => 3 | .sequence => 4 | .badAccess => 5) ∧
    v.extractLsb' 8 6 = s.regs.ri ∧
    (v.extractLsb' 14 2).toNat = (match s.regs.fsm with | .idle => 0 | .round => 1 | .accum => 2) ∧
    (v.extractLsb' 16 2).toNat = (match s.regs.cont with
      | .doneBlock => 0 | .doneFinal => 1 | .nextLenOnly => 2 | .next80Len => 3) ∧
    v.extractLsb' 18 14 = 0 ∧
    s.busyOut = v.getLsbD 0 ∧ s.dvalidOut = v.getLsbD 1

/-- Writes to STATUS, DIGESTj and the reserved offsets (R180), and reads of CMD and of the reserved offsets
(R181), complete in every state, answer 0, and change nothing. -/
def Obligations.UnstoredAccessesChangeNothing : Prop :=
  ∀ (s : State) (j : Fin 4) (x : Fin 8) (w : Word) (i : Instr),
    (i = .wrStatus w ∨ i = .wrDigest j w ∨ i = .wrReserved x w ∨ i = .rdCmd ∨ i = .rdReserved x) →
    exec i s = .next { s with reply := ⟨0, false⟩ }

/-- On an idle core a write to LEN_LO, LEN_HI or BLKj followed by a read of it returns the written value
(R64). -/
def Obligations.WriteThenReadReturnsValue : Prop :=
  ∀ (s t u : State) (j : Fin 16) (v : Word) (wr rd : Instr), s.regs.fsm = .idle →
    ((wr = .wrLenLo v ∧ rd = .rdLenLo) ∨ (wr = .wrLenHi v ∧ rd = .rdLenHi) ∨
      (wr = .wrBlk j v ∧ rd = .rdBlk j)) →
    exec wr s = .next t → exec rd t = .next u → u.reply = ⟨v, false⟩

/-! ## Core steps -/

/-- The mixing functions bit by bit: F0 chooses y or z by x, F1 chooses x or y by z, F2 is the parity, F3
is y xor (x or not z) (R100). -/
def Obligations.MixFunctionsBitwise : Prop :=
  ∀ (x y z : Word) (k : Nat), k < 32 →
    (mix 0 x y z).getLsbD k = (if x.getLsbD k then y.getLsbD k else z.getLsbD k) ∧
    (mix 1 x y z).getLsbD k = (if z.getLsbD k then x.getLsbD k else y.getLsbD k) ∧
    (mix 2 x y z).getLsbD k = ((x.getLsbD k ^^ y.getLsbD k) ^^ z.getLsbD k) ∧
    (mix 3 x y z).getLsbD k = (y.getLsbD k ^^ (x.getLsbD k || !z.getLsbD k))

/-- The constant table of R104, column by column, for all 64 steps: the group i / 16 and its mixing
function F (R100), K (R101), S (R102) and the 64 literals T; and every group takes each of the 16 block
words once (R101). -/
def Obligations.IndexAndRotationColumns : Prop :=
  (∀ (i : BitVec 6) (x y z : Word), mix (groupOf i) x y z =
    if i.toNat / 16 = 0 then (x &&& y) ||| (~~~x &&& z)
    else if i.toNat / 16 = 1 then (x &&& z) ||| (y &&& ~~~z)
    else if i.toNat / 16 = 2 then x ^^^ y ^^^ z
    else y ^^^ (x ||| ~~~z)) ∧
  ((List.finRange 64).map fun i => (kIndex (BitVec.ofFin i)).val) =
    [0, 1, 2, 3, 4, 5, 6, 7, 8, 9, 10, 11, 12, 13, 14, 15] ++
    [1, 6, 11, 0, 5, 10, 15, 4, 9, 14, 3, 8, 13, 2, 7, 12] ++
    [5, 8, 11, 14, 1, 4, 7, 10, 13, 0, 3, 6, 9, 12, 15, 2] ++
    [0, 7, 14, 5, 12, 3, 10, 1, 8, 15, 6, 13, 4, 11, 2, 9] ∧
  ((List.finRange 64).map fun i => sAmount (BitVec.ofFin i)) =
    [7, 12, 17, 22, 7, 12, 17, 22, 7, 12, 17, 22, 7, 12, 17, 22] ++
    [5, 9, 14, 20, 5, 9, 14, 20, 5, 9, 14, 20, 5, 9, 14, 20] ++
    [4, 11, 16, 23, 4, 11, 16, 23, 4, 11, 16, 23, 4, 11, 16, 23] ++
    [6, 10, 15, 21, 6, 10, 15, 21, 6, 10, 15, 21, 6, 10, 15, 21] ∧
  ((List.finRange 64).map fun i => tConst (BitVec.ofFin i)) =
    [0xd76aa478, 0xe8c7b756, 0x242070db, 0xc1bdceee,
     0xf57c0faf, 0x4787c62a, 0xa8304613, 0xfd469501,
     0x698098d8, 0x8b44f7af, 0xffff5bb1, 0x895cd7be,
     0x6b901122, 0xfd987193, 0xa679438e, 0x49b40821] ++
    [0xf61e2562, 0xc040b340, 0x265e5a51, 0xe9b6c7aa,
     0xd62f105d, 0x02441453, 0xd8a1e681, 0xe7d3fbc8,
     0x21e1cde6, 0xc33707d6, 0xf4d50d87, 0x455a14ed,
     0xa9e3e905, 0xfcefa3f8, 0x676f02d9, 0x8d2a4c8a] ++
    [0xfffa3942, 0x8771f681, 0x6d9d6122, 0xfde5380c,
     0xa4beea44, 0x4bdecfa9, 0xf6bb4b60, 0xbebfbc70,
     0x289b7ec6, 0xeaa127fa, 0xd4ef3085, 0x04881d05,
     0xd9d4d039, 0xe6db99e5, 0x1fa27cf8, 0xc4ac5665] ++
    [0xf4292244, 0x432aff97, 0xab9423a7, 0xfc93a039,
     0x655b59c3, 0x8f0ccc92, 0xffeff47d, 0x85845dd1,
     0x6fa87e4f, 0xfe2ce6e0, 0xa3014314, 0x4e0811a1,
     0xf7537e82, 0xbd3af235, 0x2ad7d2bb, 0xeb86d391] ∧
  ∀ (g : Fin 4) (k : Fin 16), ∃ i : Fin 16,
    kIndex (BitVec.ofNat 6 (16 * g.val + i.val)) = k ∧
    ∀ i' : Fin 16, kIndex (BitVec.ofNat 6 (16 * g.val + i'.val)) = k → i' = i

/-- The round step (R109): with i = RI, an = RB + rol32(RA + F(RB, RC, RD) + BLK[K(i)] + T(i), S(i)), the
tuple becomes (RD, an, RB, RC), RI becomes (i + 1) mod 64, FSM becomes ACCUM after step 63, and nothing
else changes. -/
def Obligations.RoundStepUpdatesTuple : Prop :=
  ∀ r : Regs, r.fsm = .round →
    r.coreStep = { r with
      ra := r.rd
      rb := r.rb + rol32
        (r.ra + mix (r.ri.extractLsb' 4 2) r.rb r.rc r.rd + r.blk[kIndex r.ri] + tConst r.ri)
        (sAmount r.ri)
      rc := r.rb
      rd := r.rc
      ri := BitVec.ofNat 6 ((r.ri.toNat + 1) % 64)
      fsm := if r.ri.toNat = 63 then .accum else .round }

/-- The accumulate step (R110, R111): H becomes H plus the tuple, word by word; then by CONT the core goes
idle, goes idle with DVALID = 1, or builds the second block (R146, R147), reads the new H into the tuple
and starts the next compression with CONT DONE_FINAL. Nothing else changes. -/
def Obligations.AccumulateStepContinues : Prop :=
  ∀ r : Regs, r.fsm = .accum →
    ∃ (h : Vector Word 4) (b : Vector Word 16),
      (h[0] = r.h[0] + r.ra ∧ h[1] = r.h[1] + r.rb ∧ h[2] = r.h[2] + r.rc ∧ h[3] = r.h[3] + r.rd) ∧
      (r.cont = .doneBlock → r.coreStep = { r with h := h, fsm := .idle }) ∧
      (r.cont = .doneFinal → r.coreStep = { r with h := h, fsm := .idle, dvalid := true }) ∧
      (r.cont = .nextLenOnly ∨ r.cont = .next80Len →
        r.coreStep = { r with
          h := h, blk := b, cont := .doneFinal, ra := h[0], rb := h[1], rc := h[2], rd := h[3], ri := 0,
          fsm := .round } ∧
        ∀ n : Fin 64,
          (n.val = 0 → blkByte b n = if r.cont = .next80Len then 0x80 else 0x00) ∧
          (0 < n.val → n.val < 56 → blkByte b n = 0x00) ∧
          (56 ≤ n.val →
            (blkByte b n).toNat = (r.len.toNat * 8) % 2 ^ 64 / 256 ^ (n.val - 56) % 256))

/-- The frame of a core step. It never touches CERR or ECODE, an idle core takes none, and a busy one takes
one that changes its state (R106). It reads LEN and never writes it (R24, R60, R109 to R111), and a round
step leaves H, BLK, CONT and DVALID (R109). -/
def Obligations.CoreStepFrame : Prop :=
  ∀ r : Regs, r.coreStep.len = r.len ∧ r.coreStep.cerr = r.cerr ∧ r.coreStep.ecode = r.ecode ∧
    (r.fsm = .idle → r.coreStep = r) ∧
    (r.fsm = .round → r.coreStep.h = r.h ∧ r.coreStep.blk = r.blk ∧ r.coreStep.cont = r.cont ∧
      r.coreStep.dvalid = r.dvalid) ∧
    (r.fsm ≠ .idle → r.coreStep ≠ r)

/-- Progress (R107): from FSM = ROUND and RI = r the core reaches the accumulate step after exactly 64 - r
round steps, which change neither H, BLK, LEN, CONT, DVALID nor the error record. -/
def Obligations.RoundStepsReachAccumulate : Prop :=
  ∀ (s : State) (n : Nat), s.moves = [] → s.rst = false → s.regs.fsm = .round →
    n ≤ 64 - s.regs.ri.toNat →
    ∃ t, run n s = .next t ∧ t.regs.h = s.regs.h ∧ t.regs.blk = s.regs.blk ∧ t.regs.len = s.regs.len ∧
      t.regs.cont = s.regs.cont ∧ t.regs.dvalid = s.regs.dvalid ∧ t.regs.cerr = s.regs.cerr ∧
      t.regs.ecode = s.regs.ecode ∧
      (n < 64 - s.regs.ri.toNat → t.regs.fsm = .round ∧ t.regs.ri.toNat = s.regs.ri.toNat + n) ∧
      (n = 64 - s.regs.ri.toNat → t.regs.fsm = .accum ∧ t.regs.ri = 0)

/-- Every accepted BLOCK keeps the core busy for 65 core steps and no longer (R107, R240). -/
def Obligations.BlockTakes65CoreSteps : Prop :=
  ∀ s : State, s.Ready → s.moves = [] →
    ∃ t, exec .block s = .next t ∧
      (∀ k, k < 65 → ∃ u, run k t = .next u ∧ u.regs.busy = true) ∧
      ∃ u, run 65 t = .next u ∧ u.regs.busy = false ∧ u.regs.dvalid = false

/-- Every accepted FINAL f keeps the core busy for 65 core steps if f <= 55 and for 130 if f is 56 to 64,
and no longer, and leaves DVALID = 1 (R150, R240). -/
def Obligations.FinalTakes65Or130CoreSteps : Prop :=
  ∀ (s : State) (f : BitVec 7), s.Ready → s.moves = [] → f.toNat ≤ 64 →
    ∃ t, exec (.final f) s = .next t ∧
      (∀ k, k < (if f.toNat ≤ 55 then 65 else 130) →
        ∃ u, run k t = .next u ∧ u.regs.busy = true ∧ u.regs.dvalid = false) ∧
      ∃ u, run (if f.toNat ≤ 55 then 65 else 130) t = .next u ∧ u.regs.busy = false ∧
        u.regs.dvalid = true ∧ u.regs.cont = .doneFinal

/-- POLL after an accepted BLOCK or FINAL ends (R89, R241): it leaves the list of moves, by a read of STATUS
that shows BUSY = 0, with nothing but core steps done; and whenever it has left the list the core is idle.
That one turn of the core falls between two reads is the model's choice (log entry 6). -/
def Obligations.PollEndsAtIdle : Prop :=
  ∀ s : State, s.rst = false → s.moves = [.poll] →
    (∃ n t, run n s = .next t ∧ t.moves = [] ∧ t.regs.busy = false ∧
      t.reply.rdata.getLsbD 0 = false ∧ ∃ m, t.regs = Regs.coreStep^[m] s.regs) ∧
    ∀ n t, run n s = .next t → t.moves = [] → t.regs.busy = false

/-! ## MD5 -/

/-- An accepted BLOCK compresses the working block into H as canonical MD5 does, and leaves the block and
LEN (R112, R113). -/
def Obligations.BlockCompressesWorkingBlock : Prop :=
  ∀ s : State, s.Ready → s.moves = [] →
    ∃ t u, exec .block s = .next t ∧ run 65 t = .next u ∧
      u.regs.h = Canonical.compress s.regs.h s.regs.blk ∧ u.regs.blk = s.regs.blk ∧
      u.regs.len = s.regs.len

/-- Sending one more full block by BLOCK extends what the core has absorbed by its 64 bytes (R113, R151). -/
def Obligations.BlockAbsorbsSixtyFourBytes : Prop :=
  ∀ (s : State) (m b : List Byte), s.Ready → s.moves = [] → Absorbed m s.regs → b.length = 64 →
    Holds b s.regs →
    ∃ t u, exec .block s = .next t ∧ run 65 t = .next u ∧ u.Ready ∧ Absorbed (m ++ b) u.regs

/-- With the whole blocks of a message absorbed, its last bytes in the block and its exact length in LEN,
FINAL yields the MD5 digest of the message (R151); the last full block may go by BLOCK and FINAL 0 or by
FINAL 64. -/
def Obligations.FinalYieldsMd5OfMessage : Prop :=
  ∀ (s : State) (m tail : List Byte), s.Ready → s.moves = [] → Absorbed m s.regs →
    tail.length ≤ 64 → Holds tail s.regs → Declares (m.length + tail.length) s.regs →
    ∃ t u, exec (.final (BitVec.ofNat 7 tail.length)) s = .next t ∧
      run (if tail.length ≤ 55 then 65 else 130) t = .next u ∧
      u.regs.h = Canonical.md5 (m ++ tail) ∧ u.regs.dvalid = true ∧ u.regs.fsm = .idle

/-- Whether the last full block goes by FINAL 64, or by BLOCK followed by FINAL 0, the final digest, the
working block and STATUS's fields are the same, whatever LEN declares (R151, R145, R147). -/
def Obligations.FullLastBlockEitherWay : Prop :=
  ∀ s : State, s.Ready → s.moves = [] →
    ∃ t u v w x y, exec (.final 64) s = .next t ∧ run 130 t = .next u ∧
      exec .block s = .next v ∧ run 65 v = .next w ∧ exec (.final 0) w = .next x ∧ run 65 x = .next y ∧
      u.regs = y.regs

/-- Reading STATUS and DIGEST0 to DIGEST3 of a finished core ends a run that no earlier readout has ended,
whatever accesses came before, and its result is H (R186). The record, its beginning at State.reset and its
keeping through a reset are the model's own (log entries 5, 12, 16 and 17). -/
def Obligations.ReadoutOfFinishedCoreIsDigest : Prop :=
  ∀ s : State, s.rst = false → s.regs.dvalid = true → s.regs.fsm = .idle → runResult s = none →
    s.moves = .access (.read .status) :: rddigMoves →
    ∃ t, run 5 s = .next t ∧ runResult t = some s.regs.h ∧ t.regs = s.regs

/-! ## The whole machine -/

/-- When the host's next move is an access and rst = 0, the step is the meaning of the row its bits decode
to (R11, R86), at the state with that move taken off the list. The list of moves is the model's own (log
entry 1), and so is the host's record, to which the exchange is added (log entry 5). -/
def Obligations.StepRunsDecodedAccess : Prop :=
  ∀ (s t : State) (a : Access) (ms : List Move), s.rst = false → s.moves = .access a :: ms →
    exec (decodeAccess a) { s with moves := ms } = .next t →
    step s = .next { t with log := ⟨a, t.reply⟩ :: t.log }

/-- When the host's next move is the write of a command's word to CMD and rst = 0, the step is the meaning
of that command (R88, R172). The list of moves is the model's own (log entry 1), and so is the host's
record, to which the exchange is added (log entry 5). -/
def Obligations.StepRunsDecodedCommand : Prop :=
  ∀ (s t : State) (a : Access) (w : Word) (c : Command) (ms : List Move), s.rst = false →
    s.moves = .access a :: ms → decodeAccess a = .wrCmd w → decodeCommand w = .ok c →
    exec c.toInstr { s with moves := ms } = .next t →
    step s = .next { t with log := ⟨a, t.reply⟩ :: t.log }

/-- Every step answers a next state: no access, command, core step or reset stops the machine (R200,
R106). -/
def Obligations.EveryStepAnswers : Prop := ∀ s : State, ∃ t, step s = .next t

/-- The state after reset meets the invariant. -/
def Obligations.ResetMeetsInvariant : Prop := State.reset.Inv

/-- Every step keeps the invariant: RI is 0 outside the round steps, DVALID = 1 exactly at an idle core
whose FINAL has accumulated, an idle core has no compression left to start, ECODE is 0 exactly while CERR
is, and under reset every register has its reset value. -/
def Obligations.EveryStepKeepsInvariant : Prop :=
  ∀ s t : State, s.Inv → step s = .next t → t.Inv

/-- H is written in exactly three ways: the accumulate step adds the tuple; an accepted INIT and reset load
the IV (R21). -/
def Obligations.DigestWrittenInThreeWays : Prop :=
  ∀ s t : State, step s = .next t →
    t.regs.h = s.regs.h ∨
    (s.accumulates ∧ t.regs.h = #v[s.regs.h[0] + s.regs.ra, s.regs.h[1] + s.regs.rb,
      s.regs.h[2] + s.regs.rc, s.regs.h[3] + s.regs.rd]) ∨
    ((s.acceptsInit ∨ s.resets) ∧ t.regs.h = iv)

/-- CERR and ECODE are cleared only by an accepted INIT or by reset: every other step keeps a recorded
error and its code (R210). -/
def Obligations.ErrorRecordClearedOnlyByInitOrReset : Prop :=
  ∀ s t : State, s.regs.cerr = true → step s = .next t →
    (t.regs.cerr = true ∧ t.regs.ecode = s.regs.ecode) ∨ s.acceptsInit ∨ s.resets

/-- While DVALID = 1 the finished digest and DVALID stay until an accepted INIT or reset (R148, R206). -/
def Obligations.FinishedDigestHeld : Prop :=
  ∀ s t : State, s.Inv → s.regs.dvalid = true → step s = .next t →
    (t.regs.h = s.regs.h ∧ t.regs.dvalid = true) ∨ s.acceptsInit ∨ s.resets

/-- While BUSY = 1 no access reaches LEN, the working block, H or the sequencing state (R60, R66): LEN stays
until a reset; an access leaves every register as it was, but for the error record; and BLK, H, the tuple,
RI, FSM, CONT and DVALID change only in the core's own turn, out of reset, by its own step. -/
def Obligations.BusyCoreUnreachableByHost : Prop :=
  ∀ s t : State, s.regs.busy = true → step s = .next t →
    s.resets ∨
    (t.regs.len = s.regs.len ∧
      (t.regs = s.regs ∨
        (s.rst = false ∧ (∃ a ms, s.moves = .access a :: ms) ∧
          ∃ e, t.regs = s.regs.recordError e) ∨
        (s.rst = false ∧ (s.moves = [] ∨ ∃ ms, s.moves = .core :: ms) ∧
          t.regs = s.regs.coreStep)))

/-- An access that changes no register (a read, NOP, an ignored write, an error), and any access that finds
the core busy both before and after a turn of the core, commutes with that turn: the registers are the same
in either order (R189). -/
def Obligations.CoreTurnCommutesWithNeutralAccess : Prop :=
  ∀ (i : Instr) (s t u : State),
    (i.passive = true ∨ (s.regs.busy = true ∧ (coreTurn s).regs.busy = true)) →
    exec i s = .next t → exec i (coreTurn s) = .next u →
    (coreTurn t).regs = u.regs

/-- However turns of the core and accesses that change no register interleave, the outcome depends on the
number of core turns alone, but for the error record (R11, R189). -/
def Obligations.ScheduleDoesNotChangeOutcome : Prop :=
  ∀ (s t : State) (ms : List Move), s.rst = false → s.moves = ms → (∀ m ∈ ms, m.neutral = true) →
    run ms.length s = .next t →
    { t.regs with cerr := s.regs.cerr, ecode := s.regs.ecode } =
      Regs.coreStep^[ms.countP (· = .core)] s.regs

/-- The cores of a platform of any size share neither state nor window (R215, R41, R50, R63, R64). A step of core
k always completes, is the step of core k alone, and leaves every other core as it was. No address lies in
the windows of two cores; an access presented at BASE + off of core k becomes a move of core k at offset
off, behind every move pending there (R64), and reaches no other core; at an address outside every window it
reaches none. That an access waits in the list of moves is the model's own (log entry 1), and so is a BASE for each core (log entry 11). -/
def Obligations.CoresShareNoState : Prop :=
  ∀ (n : Nat) (p : Platform n) (k : Fin n),
    (∃ q t, p.step k = .next q ∧ step p.cores[k] = .next t ∧ q.cores[k] = t ∧
      ∀ j : Fin n, j ≠ k → q.cores[j] = p.cores[j]) ∧
    (∀ (j : Fin n) (address : Nat), j ≠ k → windowOffset k address ≠ none →
      windowOffset j address = none) ∧
    (∀ (we : Bool) (be : BitVec 4) (off : BitVec 7) (wdata : Word),
      ∃ q, p.present we be (Config.base k + off.toNat) wdata = q ∧
        q.cores[k] = { p.cores[k] with moves := p.cores[k].moves ++ [.access ⟨we, be, off, wdata⟩] } ∧
        ∀ j : Fin n, j ≠ k → q.cores[j] = p.cores[j]) ∧
    ∀ (we : Bool) (be : BitVec 4) (address : Nat) (wdata : Word),
      (∀ j : Fin n, windowOffset j address = none) → p.present we be address wdata = p
end

