-- ==== Sys2Proof/Laws/State.lean ====
section
/-! SUPPORT. One lemma per field per update of the state, so that no proof unfolds a record update. -/

namespace Sys2Proof.Machine

/-! ### Regs.setLenLo -/

@[simp] theorem Regs.setLenLo_h (w : Word) (r : Regs) :
    (r.setLenLo w).h = r.h := rfl
@[simp] theorem Regs.setLenLo_blk (w : Word) (r : Regs) :
    (r.setLenLo w).blk = r.blk := rfl
@[simp] theorem Regs.setLenLo_len (w : Word) (r : Regs) :
    (r.setLenLo w).len = lenOf (lenHi r.len) w := rfl
@[simp] theorem Regs.setLenLo_ra (w : Word) (r : Regs) :
    (r.setLenLo w).ra = r.ra := rfl
@[simp] theorem Regs.setLenLo_rb (w : Word) (r : Regs) :
    (r.setLenLo w).rb = r.rb := rfl
@[simp] theorem Regs.setLenLo_rc (w : Word) (r : Regs) :
    (r.setLenLo w).rc = r.rc := rfl
@[simp] theorem Regs.setLenLo_rd (w : Word) (r : Regs) :
    (r.setLenLo w).rd = r.rd := rfl
@[simp] theorem Regs.setLenLo_ri (w : Word) (r : Regs) :
    (r.setLenLo w).ri = r.ri := rfl
@[simp] theorem Regs.setLenLo_fsm (w : Word) (r : Regs) :
    (r.setLenLo w).fsm = r.fsm := rfl
@[simp] theorem Regs.setLenLo_cont (w : Word) (r : Regs) :
    (r.setLenLo w).cont = r.cont := rfl
@[simp] theorem Regs.setLenLo_dvalid (w : Word) (r : Regs) :
    (r.setLenLo w).dvalid = r.dvalid := rfl
@[simp] theorem Regs.setLenLo_cerr (w : Word) (r : Regs) :
    (r.setLenLo w).cerr = r.cerr := rfl
@[simp] theorem Regs.setLenLo_ecode (w : Word) (r : Regs) :
    (r.setLenLo w).ecode = r.ecode := rfl

/-! ### Regs.setLenHi -/

@[simp] theorem Regs.setLenHi_h (w : Word) (r : Regs) :
    (r.setLenHi w).h = r.h := rfl
@[simp] theorem Regs.setLenHi_blk (w : Word) (r : Regs) :
    (r.setLenHi w).blk = r.blk := rfl
@[simp] theorem Regs.setLenHi_len (w : Word) (r : Regs) :
    (r.setLenHi w).len = lenOf w (lenLo r.len) := rfl
@[simp] theorem Regs.setLenHi_ra (w : Word) (r : Regs) :
    (r.setLenHi w).ra = r.ra := rfl
@[simp] theorem Regs.setLenHi_rb (w : Word) (r : Regs) :
    (r.setLenHi w).rb = r.rb := rfl
@[simp] theorem Regs.setLenHi_rc (w : Word) (r : Regs) :
    (r.setLenHi w).rc = r.rc := rfl
@[simp] theorem Regs.setLenHi_rd (w : Word) (r : Regs) :
    (r.setLenHi w).rd = r.rd := rfl
@[simp] theorem Regs.setLenHi_ri (w : Word) (r : Regs) :
    (r.setLenHi w).ri = r.ri := rfl
@[simp] theorem Regs.setLenHi_fsm (w : Word) (r : Regs) :
    (r.setLenHi w).fsm = r.fsm := rfl
@[simp] theorem Regs.setLenHi_cont (w : Word) (r : Regs) :
    (r.setLenHi w).cont = r.cont := rfl
@[simp] theorem Regs.setLenHi_dvalid (w : Word) (r : Regs) :
    (r.setLenHi w).dvalid = r.dvalid := rfl
@[simp] theorem Regs.setLenHi_cerr (w : Word) (r : Regs) :
    (r.setLenHi w).cerr = r.cerr := rfl
@[simp] theorem Regs.setLenHi_ecode (w : Word) (r : Regs) :
    (r.setLenHi w).ecode = r.ecode := rfl

/-! ### Regs.setBlkWord -/

@[simp] theorem Regs.setBlkWord_h (j : Fin 16) (w : Word) (r : Regs) :
    (r.setBlkWord j w).h = r.h := rfl
@[simp] theorem Regs.setBlkWord_blk (j : Fin 16) (w : Word) (r : Regs) :
    (r.setBlkWord j w).blk = r.blk.set j.val w := rfl
@[simp] theorem Regs.setBlkWord_len (j : Fin 16) (w : Word) (r : Regs) :
    (r.setBlkWord j w).len = r.len := rfl
@[simp] theorem Regs.setBlkWord_ra (j : Fin 16) (w : Word) (r : Regs) :
    (r.setBlkWord j w).ra = r.ra := rfl
@[simp] theorem Regs.setBlkWord_rb (j : Fin 16) (w : Word) (r : Regs) :
    (r.setBlkWord j w).rb = r.rb := rfl
@[simp] theorem Regs.setBlkWord_rc (j : Fin 16) (w : Word) (r : Regs) :
    (r.setBlkWord j w).rc = r.rc := rfl
@[simp] theorem Regs.setBlkWord_rd (j : Fin 16) (w : Word) (r : Regs) :
    (r.setBlkWord j w).rd = r.rd := rfl
@[simp] theorem Regs.setBlkWord_ri (j : Fin 16) (w : Word) (r : Regs) :
    (r.setBlkWord j w).ri = r.ri := rfl
@[simp] theorem Regs.setBlkWord_fsm (j : Fin 16) (w : Word) (r : Regs) :
    (r.setBlkWord j w).fsm = r.fsm := rfl
@[simp] theorem Regs.setBlkWord_cont (j : Fin 16) (w : Word) (r : Regs) :
    (r.setBlkWord j w).cont = r.cont := rfl
@[simp] theorem Regs.setBlkWord_dvalid (j : Fin 16) (w : Word) (r : Regs) :
    (r.setBlkWord j w).dvalid = r.dvalid := rfl
@[simp] theorem Regs.setBlkWord_cerr (j : Fin 16) (w : Word) (r : Regs) :
    (r.setBlkWord j w).cerr = r.cerr := rfl
@[simp] theorem Regs.setBlkWord_ecode (j : Fin 16) (w : Word) (r : Regs) :
    (r.setBlkWord j w).ecode = r.ecode := rfl

/-! ### Regs.recordError -/

@[simp] theorem Regs.recordError_h (e : ErrorCode) (r : Regs) :
    (r.recordError e).h = r.h := rfl
@[simp] theorem Regs.recordError_blk (e : ErrorCode) (r : Regs) :
    (r.recordError e).blk = r.blk := rfl
@[simp] theorem Regs.recordError_len (e : ErrorCode) (r : Regs) :
    (r.recordError e).len = r.len := rfl
@[simp] theorem Regs.recordError_ra (e : ErrorCode) (r : Regs) :
    (r.recordError e).ra = r.ra := rfl
@[simp] theorem Regs.recordError_rb (e : ErrorCode) (r : Regs) :
    (r.recordError e).rb = r.rb := rfl
@[simp] theorem Regs.recordError_rc (e : ErrorCode) (r : Regs) :
    (r.recordError e).rc = r.rc := rfl
@[simp] theorem Regs.recordError_rd (e : ErrorCode) (r : Regs) :
    (r.recordError e).rd = r.rd := rfl
@[simp] theorem Regs.recordError_ri (e : ErrorCode) (r : Regs) :
    (r.recordError e).ri = r.ri := rfl
@[simp] theorem Regs.recordError_fsm (e : ErrorCode) (r : Regs) :
    (r.recordError e).fsm = r.fsm := rfl
@[simp] theorem Regs.recordError_cont (e : ErrorCode) (r : Regs) :
    (r.recordError e).cont = r.cont := rfl
@[simp] theorem Regs.recordError_dvalid (e : ErrorCode) (r : Regs) :
    (r.recordError e).dvalid = r.dvalid := rfl
@[simp] theorem Regs.recordError_cerr (e : ErrorCode) (r : Regs) :
    (r.recordError e).cerr = true := rfl
@[simp] theorem Regs.recordError_ecode (e : ErrorCode) (r : Regs) :
    (r.recordError e).ecode = if r.cerr then r.ecode else e := rfl

/-! ### Regs.clearError -/

@[simp] theorem Regs.clearError_h (r : Regs) :
    (r.clearError).h = r.h := rfl
@[simp] theorem Regs.clearError_blk (r : Regs) :
    (r.clearError).blk = r.blk := rfl
@[simp] theorem Regs.clearError_len (r : Regs) :
    (r.clearError).len = r.len := rfl
@[simp] theorem Regs.clearError_ra (r : Regs) :
    (r.clearError).ra = r.ra := rfl
@[simp] theorem Regs.clearError_rb (r : Regs) :
    (r.clearError).rb = r.rb := rfl
@[simp] theorem Regs.clearError_rc (r : Regs) :
    (r.clearError).rc = r.rc := rfl
@[simp] theorem Regs.clearError_rd (r : Regs) :
    (r.clearError).rd = r.rd := rfl
@[simp] theorem Regs.clearError_ri (r : Regs) :
    (r.clearError).ri = r.ri := rfl
@[simp] theorem Regs.clearError_fsm (r : Regs) :
    (r.clearError).fsm = r.fsm := rfl
@[simp] theorem Regs.clearError_cont (r : Regs) :
    (r.clearError).cont = r.cont := rfl
@[simp] theorem Regs.clearError_dvalid (r : Regs) :
    (r.clearError).dvalid = r.dvalid := rfl
@[simp] theorem Regs.clearError_cerr (r : Regs) :
    (r.clearError).cerr = false := rfl
@[simp] theorem Regs.clearError_ecode (r : Regs) :
    (r.clearError).ecode = .none := rfl

/-! ### Regs.startCompress -/

@[simp] theorem Regs.startCompress_h (r : Regs) :
    (r.startCompress).h = r.h := rfl
@[simp] theorem Regs.startCompress_blk (r : Regs) :
    (r.startCompress).blk = r.blk := rfl
@[simp] theorem Regs.startCompress_len (r : Regs) :
    (r.startCompress).len = r.len := rfl
@[simp] theorem Regs.startCompress_ra (r : Regs) :
    (r.startCompress).ra = r.h[0] := rfl
@[simp] theorem Regs.startCompress_rb (r : Regs) :
    (r.startCompress).rb = r.h[1] := rfl
@[simp] theorem Regs.startCompress_rc (r : Regs) :
    (r.startCompress).rc = r.h[2] := rfl
@[simp] theorem Regs.startCompress_rd (r : Regs) :
    (r.startCompress).rd = r.h[3] := rfl
@[simp] theorem Regs.startCompress_ri (r : Regs) :
    (r.startCompress).ri = 0 := rfl
@[simp] theorem Regs.startCompress_fsm (r : Regs) :
    (r.startCompress).fsm = .round := rfl
@[simp] theorem Regs.startCompress_cont (r : Regs) :
    (r.startCompress).cont = r.cont := rfl
@[simp] theorem Regs.startCompress_dvalid (r : Regs) :
    (r.startCompress).dvalid = r.dvalid := rfl
@[simp] theorem Regs.startCompress_cerr (r : Regs) :
    (r.startCompress).cerr = r.cerr := rfl
@[simp] theorem Regs.startCompress_ecode (r : Regs) :
    (r.startCompress).ecode = r.ecode := rfl

/-! ### Regs.acceptBlock -/

@[simp] theorem Regs.acceptBlock_h (r : Regs) :
    (r.acceptBlock).h = r.h := rfl
@[simp] theorem Regs.acceptBlock_blk (r : Regs) :
    (r.acceptBlock).blk = r.blk := rfl
@[simp] theorem Regs.acceptBlock_len (r : Regs) :
    (r.acceptBlock).len = r.len := rfl
@[simp] theorem Regs.acceptBlock_ra (r : Regs) :
    (r.acceptBlock).ra = r.h[0] := rfl
@[simp] theorem Regs.acceptBlock_rb (r : Regs) :
    (r.acceptBlock).rb = r.h[1] := rfl
@[simp] theorem Regs.acceptBlock_rc (r : Regs) :
    (r.acceptBlock).rc = r.h[2] := rfl
@[simp] theorem Regs.acceptBlock_rd (r : Regs) :
    (r.acceptBlock).rd = r.h[3] := rfl
@[simp] theorem Regs.acceptBlock_ri (r : Regs) :
    (r.acceptBlock).ri = 0 := rfl
@[simp] theorem Regs.acceptBlock_fsm (r : Regs) :
    (r.acceptBlock).fsm = .round := rfl
@[simp] theorem Regs.acceptBlock_cont (r : Regs) :
    (r.acceptBlock).cont = .doneBlock := rfl
@[simp] theorem Regs.acceptBlock_dvalid (r : Regs) :
    (r.acceptBlock).dvalid = r.dvalid := rfl
@[simp] theorem Regs.acceptBlock_cerr (r : Regs) :
    (r.acceptBlock).cerr = r.cerr := rfl
@[simp] theorem Regs.acceptBlock_ecode (r : Regs) :
    (r.acceptBlock).ecode = r.ecode := rfl

/-! ### Regs.acceptInit -/

@[simp] theorem Regs.acceptInit_h (r : Regs) :
    (r.acceptInit).h = iv := rfl
@[simp] theorem Regs.acceptInit_blk (r : Regs) :
    (r.acceptInit).blk = Vector.replicate 16 0 := rfl
@[simp] theorem Regs.acceptInit_len (r : Regs) :
    (r.acceptInit).len = 0 := rfl
@[simp] theorem Regs.acceptInit_ra (r : Regs) :
    (r.acceptInit).ra = 0 := rfl
@[simp] theorem Regs.acceptInit_rb (r : Regs) :
    (r.acceptInit).rb = 0 := rfl
@[simp] theorem Regs.acceptInit_rc (r : Regs) :
    (r.acceptInit).rc = 0 := rfl
@[simp] theorem Regs.acceptInit_rd (r : Regs) :
    (r.acceptInit).rd = 0 := rfl
@[simp] theorem Regs.acceptInit_ri (r : Regs) :
    (r.acceptInit).ri = 0 := rfl
@[simp] theorem Regs.acceptInit_fsm (r : Regs) :
    (r.acceptInit).fsm = r.fsm := rfl
@[simp] theorem Regs.acceptInit_cont (r : Regs) :
    (r.acceptInit).cont = .doneBlock := rfl
@[simp] theorem Regs.acceptInit_dvalid (r : Regs) :
    (r.acceptInit).dvalid = false := rfl
@[simp] theorem Regs.acceptInit_cerr (r : Regs) :
    (r.acceptInit).cerr = false := rfl
@[simp] theorem Regs.acceptInit_ecode (r : Regs) :
    (r.acceptInit).ecode = .none := rfl

/-! ### Regs.roundStep -/

@[simp] theorem Regs.roundStep_h (r : Regs) :
    (r.roundStep).h = r.h := rfl
@[simp] theorem Regs.roundStep_blk (r : Regs) :
    (r.roundStep).blk = r.blk := rfl
@[simp] theorem Regs.roundStep_len (r : Regs) :
    (r.roundStep).len = r.len := rfl
@[simp] theorem Regs.roundStep_ra (r : Regs) :
    (r.roundStep).ra = r.rd := rfl
@[simp] theorem Regs.roundStep_rb (r : Regs) :
    (r.roundStep).rb = roundValue r.ri r.blk r.ra r.rb r.rc r.rd := rfl
@[simp] theorem Regs.roundStep_rc (r : Regs) :
    (r.roundStep).rc = r.rb := rfl
@[simp] theorem Regs.roundStep_rd (r : Regs) :
    (r.roundStep).rd = r.rc := rfl
@[simp] theorem Regs.roundStep_ri (r : Regs) :
    (r.roundStep).ri = r.ri + 1 := rfl
@[simp] theorem Regs.roundStep_fsm (r : Regs) :
    (r.roundStep).fsm = if r.ri = 63 then .accum else r.fsm := rfl
@[simp] theorem Regs.roundStep_cont (r : Regs) :
    (r.roundStep).cont = r.cont := rfl
@[simp] theorem Regs.roundStep_dvalid (r : Regs) :
    (r.roundStep).dvalid = r.dvalid := rfl
@[simp] theorem Regs.roundStep_cerr (r : Regs) :
    (r.roundStep).cerr = r.cerr := rfl
@[simp] theorem Regs.roundStep_ecode (r : Regs) :
    (r.roundStep).ecode = r.ecode := rfl

/-! ### Regs.addTuple -/

@[simp] theorem Regs.addTuple_h (r : Regs) :
    (r.addTuple).h = #v[r.h[0] + r.ra, r.h[1] + r.rb, r.h[2] + r.rc, r.h[3] + r.rd] := rfl
@[simp] theorem Regs.addTuple_blk (r : Regs) :
    (r.addTuple).blk = r.blk := rfl
@[simp] theorem Regs.addTuple_len (r : Regs) :
    (r.addTuple).len = r.len := rfl
@[simp] theorem Regs.addTuple_ra (r : Regs) :
    (r.addTuple).ra = r.ra := rfl
@[simp] theorem Regs.addTuple_rb (r : Regs) :
    (r.addTuple).rb = r.rb := rfl
@[simp] theorem Regs.addTuple_rc (r : Regs) :
    (r.addTuple).rc = r.rc := rfl
@[simp] theorem Regs.addTuple_rd (r : Regs) :
    (r.addTuple).rd = r.rd := rfl
@[simp] theorem Regs.addTuple_ri (r : Regs) :
    (r.addTuple).ri = r.ri := rfl
@[simp] theorem Regs.addTuple_fsm (r : Regs) :
    (r.addTuple).fsm = r.fsm := rfl
@[simp] theorem Regs.addTuple_cont (r : Regs) :
    (r.addTuple).cont = r.cont := rfl
@[simp] theorem Regs.addTuple_dvalid (r : Regs) :
    (r.addTuple).dvalid = r.dvalid := rfl
@[simp] theorem Regs.addTuple_cerr (r : Regs) :
    (r.addTuple).cerr = r.cerr := rfl
@[simp] theorem Regs.addTuple_ecode (r : Regs) :
    (r.addTuple).ecode = r.ecode := rfl

/-! ### noteExchange and driveRst -/

@[simp] theorem noteExchange_regs (a : Access) (s : State) : (noteExchange a s).regs = s.regs := rfl
@[simp] theorem noteExchange_rst (a : Access) (s : State) : (noteExchange a s).rst = s.rst := rfl
@[simp] theorem noteExchange_reply (a : Access) (s : State) : (noteExchange a s).reply = s.reply := rfl
@[simp] theorem noteExchange_moves (a : Access) (s : State) : (noteExchange a s).moves = s.moves := rfl
@[simp] theorem noteExchange_log (a : Access) (s : State) :
    (noteExchange a s).log = ⟨a, s.reply⟩ :: s.log := rfl

@[simp] theorem driveRst_regs (level : Bool) (s : State) :
    (driveRst level s).regs = if level || s.rst then Regs.reset else s.regs := rfl
@[simp] theorem driveRst_rst (level : Bool) (s : State) : (driveRst level s).rst = level := rfl
@[simp] theorem driveRst_reply (level : Bool) (s : State) : (driveRst level s).reply = s.reply := rfl
@[simp] theorem driveRst_moves (level : Bool) (s : State) : (driveRst level s).moves = s.moves := rfl
@[simp] theorem driveRst_log (level : Bool) (s : State) : (driveRst level s).log = s.log := rfl

/-! ### coreTurn -/

@[simp] theorem coreTurn_rst (s : State) : (coreTurn s).rst = s.rst := by
  unfold coreTurn; split <;> rfl
@[simp] theorem coreTurn_reply (s : State) : (coreTurn s).reply = s.reply := by
  unfold coreTurn; split <;> rfl
@[simp] theorem coreTurn_moves (s : State) : (coreTurn s).moves = s.moves := by
  unfold coreTurn; split <;> rfl
@[simp] theorem coreTurn_log (s : State) : (coreTurn s).log = s.log := by
  unfold coreTurn; split <;> rfl
theorem coreTurn_regs (s : State) :
    (coreTurn s).regs = if s.rst then s.regs else s.regs.coreStep := by
  unfold coreTurn; split <;> rfl

end Sys2Proof.Machine
end

