-- ==== Sys2Proof/Laws/Ops.lean ====
section
/-! SUPPORT. What each shared operation can do, said once: the error record, the checks of a command,
the guarded writes, and every meaning (`exec_cases`). -/

namespace Sys2Proof.Machine

/-! ## The operations -/

/-- BUSY says that FSM is not IDLE (R31). -/
theorem busy_eq_false_iff (r : Regs) : r.busy = false ↔ r.fsm = .idle := by
  cases h : r.fsm <;> simp [Regs.busy, h]

theorem busy_eq_true_iff (r : Regs) : r.busy = true ↔ r.fsm ≠ .idle := by
  cases h : r.fsm <;> simp [Regs.busy, h]

/-- An error while one is recorded changes nothing (R204, R210). -/
theorem recordError_of_cerr {r : Regs} (h : r.cerr = true) (e : ErrorCode) : r.recordError e = r := by
  cases r; simp_all [Regs.recordError]

theorem writeUnlessBusy_busy {s : State} (h : s.regs.busy = true) (f : Regs → Regs) :
    writeUnlessBusy f s = takeError .busy s := by
  simp [writeUnlessBusy, h]

theorem writeUnlessBusy_idle {s : State} (h : s.regs.busy = false) (f : Regs → Regs) :
    writeUnlessBusy f s = complete (f s.regs) 0 s := by
  simp [writeUnlessBusy, h]

theorem attempt_refused {c : Command} {s : State} {e : ErrorCode} (h : commandError c s.regs = some e)
    (f : Regs → Regs) : attempt c f s = takeError e s := by
  simp [attempt, h]

theorem attempt_accepted {c : Command} {s : State} (h : commandError c s.regs = none)
    (f : Regs → Regs) : attempt c f s = complete (f s.regs) 0 s := by
  simp [attempt, h]

/-- The error of a command's checks is BUSY, SEQUENCE or BAD_FILLED (R208). -/
theorem commandError_codes {c : Command} {r : Regs} {e : ErrorCode} (h : commandError c r = some e) :
    e = .busy ∨ e = .sequence ∨ e = .badFilled := by
  cases c <;> simp only [commandError] at h <;> (repeat' split at h) <;> simp_all

theorem commandError_busy {r : Regs} (h : r.busy = true) {c : Command} (hc : c ≠ .nop) :
    commandError c r = some .busy := by
  cases c <;> simp_all [commandError]

theorem commandError_init_eq_none (r : Regs) : commandError .init r = none ↔ r.busy = false := by
  cases h : r.busy <;> simp [commandError, h]

theorem commandError_block_eq_none (r : Regs) :
    commandError .block r = none ↔ r.busy = false ∧ r.dvalid = false := by
  cases h : r.busy <;> cases h' : r.dvalid <;> simp [commandError, h, h']

theorem commandError_final_eq_none (f : BitVec 7) (r : Regs) :
    commandError (.final f) r = none ↔ r.busy = false ∧ r.dvalid = false ∧ f.toNat ≤ 64 := by
  cases h : r.busy <;> cases h' : r.dvalid <;> simp [commandError, h, h']

/-! ## Every meaning -/

/-- The ways an instruction can change the registers: not at all, the error record, a write to LEN or
BLK of an idle core, or an accepted INIT, BLOCK or FINAL. -/
inductive RegChange (i : Instr) (r : Regs) : Regs → Prop where
  | same : RegChange i r r
  | error (e : ErrorCode) (he : e ≠ .none) : RegChange i r (r.recordError e)
  | lenLo (w : Word) (hi : i = .wrLenLo w) (hb : r.busy = false) : RegChange i r (r.setLenLo w)
  | lenHi (w : Word) (hi : i = .wrLenHi w) (hb : r.busy = false) : RegChange i r (r.setLenHi w)
  | blk (j : Fin 16) (w : Word) (hi : i = .wrBlk j w) (hb : r.busy = false) :
      RegChange i r (r.setBlkWord j w)
  | init (hi : i = .init ∨ ∃ w, i = .wrCmd w ∧ decodeCommand w = .ok .init) (hb : r.busy = false) :
      RegChange i r r.acceptInit
  | block (hi : i = .block ∨ ∃ w, i = .wrCmd w ∧ decodeCommand w = .ok .block) (hb : r.busy = false)
      (hd : r.dvalid = false) : RegChange i r r.acceptBlock
  | final (f : BitVec 7) (hi : i = .final f ∨ ∃ w, i = .wrCmd w ∧ decodeCommand w = .ok (.final f))
      (hb : r.busy = false) (hd : r.dvalid = false) (hf : f.toNat ≤ 64) :
      RegChange i r (r.acceptFinal f)

/-- A command's meaning, in terms of what it does when accepted. -/
theorem attempt_next {c : Command} {f : Regs → Regs} {s : State} :
    ∃ t, attempt c f s = .next t ∧ t.rst = s.rst ∧ t.moves = s.moves ∧ t.log = s.log ∧
      ((commandError c s.regs = none ∧ t.regs = f s.regs ∧ t.reply = ⟨0, false⟩) ∨
        ∃ e, commandError c s.regs = some e ∧ t.regs = s.regs.recordError e ∧ t.reply = ⟨0, e.busErr⟩) := by
  cases h : commandError c s.regs with
  | none => exact ⟨_, attempt_accepted h f, rfl, rfl, rfl, .inl ⟨rfl, rfl, rfl⟩⟩
  | some e => exact ⟨_, attempt_refused h f, rfl, rfl, rfl, .inr ⟨e, rfl, rfl, rfl⟩⟩

theorem ne_none_of_commandError {c : Command} {r : Regs} {e : ErrorCode}
    (h : commandError c r = some e) : e ≠ .none := by
  rcases commandError_codes h with rfl | rfl | rfl <;> decide

theorem execNop_eq (s : State) : execNop s = complete s.regs 0 s := rfl

/-- Says once what any instruction does: it answers a next state, touches neither rst, the pending moves
nor the log, and changes the registers in one of the ways of `RegChange`. -/
theorem exec_cases (i : Instr) (s : State) :
    ∃ t, exec i s = .next t ∧ t.rst = s.rst ∧ t.moves = s.moves ∧ t.log = s.log ∧
      RegChange i s.regs t.regs := by
  have hinit : ∀ i : Instr, (i = .init ∨ ∃ w, i = .wrCmd w ∧ decodeCommand w = .ok .init) →
      ∃ t, execInit s = .next t ∧ t.rst = s.rst ∧ t.moves = s.moves ∧ t.log = s.log ∧
        RegChange i s.regs t.regs := by
    intro i hi
    obtain ⟨t, ht, h1, h2, h3, ⟨hc, hr, -⟩ | ⟨e, he, hr, -⟩⟩ :=
      attempt_next (c := .init) (f := Regs.acceptInit) (s := s)
    · exact ⟨t, ht, h1, h2, h3, hr ▸ .init hi ((commandError_init_eq_none _).1 hc)⟩
    · exact ⟨t, ht, h1, h2, h3, hr ▸ .error e (ne_none_of_commandError he)⟩
  have hblock : ∀ i : Instr, (i = .block ∨ ∃ w, i = .wrCmd w ∧ decodeCommand w = .ok .block) →
      ∃ t, execBlock s = .next t ∧ t.rst = s.rst ∧ t.moves = s.moves ∧ t.log = s.log ∧
        RegChange i s.regs t.regs := by
    intro i hi
    obtain ⟨t, ht, h1, h2, h3, ⟨hc, hr, -⟩ | ⟨e, he, hr, -⟩⟩ :=
      attempt_next (c := .block) (f := Regs.acceptBlock) (s := s)
    · obtain ⟨hb, hd⟩ := (commandError_block_eq_none _).1 hc
      exact ⟨t, ht, h1, h2, h3, hr ▸ .block hi hb hd⟩
    · exact ⟨t, ht, h1, h2, h3, hr ▸ .error e (ne_none_of_commandError he)⟩
  have hfinal : ∀ (f : BitVec 7) (i : Instr),
      (i = .final f ∨ ∃ w, i = .wrCmd w ∧ decodeCommand w = .ok (.final f)) →
      ∃ t, execFinal f s = .next t ∧ t.rst = s.rst ∧ t.moves = s.moves ∧ t.log = s.log ∧
        RegChange i s.regs t.regs := by
    intro f i hi
    obtain ⟨t, ht, h1, h2, h3, ⟨hc, hr, -⟩ | ⟨e, he, hr, -⟩⟩ :=
      attempt_next (c := .final f) (f := Regs.acceptFinal f) (s := s)
    · obtain ⟨hb, hd, hf⟩ := (commandError_final_eq_none _ _).1 hc
      exact ⟨t, ht, h1, h2, h3, hr ▸ .final f hi hb hd hf⟩
    · exact ⟨t, ht, h1, h2, h3, hr ▸ .error e (ne_none_of_commandError he)⟩
  have hwrite : ∀ (f : Regs → Regs), (s.regs.busy = false → RegChange i s.regs (f s.regs)) →
      ∃ t, writeUnlessBusy f s = .next t ∧ t.rst = s.rst ∧ t.moves = s.moves ∧ t.log = s.log ∧
        RegChange i s.regs t.regs := by
    intro f hf
    cases hb : s.regs.busy with
    | true => exact ⟨_, writeUnlessBusy_busy hb f, rfl, rfl, rfl, .error .busy (by decide)⟩
    | false => exact ⟨_, writeUnlessBusy_idle hb f, rfl, rfl, rfl, hf hb⟩
  cases i with
  | nop => exact ⟨_, rfl, rfl, rfl, rfl, .same⟩
  | init => exact hinit _ (.inl rfl)
  | block => exact hblock _ (.inl rfl)
  | final f => exact hfinal f _ (.inl rfl)
  | wrCmd w =>
    simp only [exec, execWrCmd]
    split
    · exact ⟨_, rfl, rfl, rfl, rfl, .error .illegalOp (by decide)⟩
    · exact ⟨_, rfl, rfl, rfl, rfl, .same⟩
    · exact hinit _ (.inr ⟨w, rfl, ‹_›⟩)
    · exact hblock _ (.inr ⟨w, rfl, ‹_›⟩)
    · exact hfinal _ _ (.inr ⟨w, rfl, ‹_›⟩)
  | rdCmd => exact ⟨_, rfl, rfl, rfl, rfl, .same⟩
  | rdStatus => exact ⟨_, rfl, rfl, rfl, rfl, .same⟩
  | wrStatus w => exact ⟨_, rfl, rfl, rfl, rfl, .same⟩
  | wrLenLo w => exact hwrite _ (.lenLo w rfl)
  | rdLenLo => exact ⟨_, rfl, rfl, rfl, rfl, .same⟩
  | wrLenHi w => exact hwrite _ (.lenHi w rfl)
  | rdLenHi => exact ⟨_, rfl, rfl, rfl, rfl, .same⟩
  | rdDigest j => exact ⟨_, rfl, rfl, rfl, rfl, .same⟩
  | wrDigest j w => exact ⟨_, rfl, rfl, rfl, rfl, .same⟩
  | rdReserved x => exact ⟨_, rfl, rfl, rfl, rfl, .same⟩
  | wrReserved x w => exact ⟨_, rfl, rfl, rfl, rfl, .same⟩
  | wrBlk j w => exact hwrite _ (.blk j w rfl)
  | rdBlk j => exact ⟨_, rfl, rfl, rfl, rfl, .same⟩
  | badAccessNarrow we be addr wdata => exact ⟨_, rfl, rfl, rfl, rfl, .error .badAccess (by decide)⟩
  | badAccessMisaligned we addr wdata => exact ⟨_, rfl, rfl, rfl, rfl, .error .badAccess (by decide)⟩

end Sys2Proof.Machine
end

