-- ==== Sys2Proof/Laws/Blk.lean ====
section
/-! SUPPORT. The byte view of the working block: reading back what was written, a block is its bytes, and
the bytes of each padding. -/

namespace Sys2Proof.Machine

/-- Bit k of a packed word is bit k mod 8 of its byte k / 8. -/
theorem getLsbD_packWord (b0 b1 b2 b3 : Byte) (k : Nat) :
    (packWord b0 b1 b2 b3).getLsbD k =
      if k < 8 then b0.getLsbD k else if k < 16 then b1.getLsbD (k - 8)
      else if k < 24 then b2.getLsbD (k - 16) else b3.getLsbD (k - 24) := by
  simp only [packWord, BitVec.getLsbD_append, Nat.sub_sub, show (k - 8 < 8) ↔ (k < 16) by omega,
    show (k - (8 + 8) < 8) ↔ (k < 24) by omega]

theorem byteOf_packWord_0 (b0 b1 b2 b3 : Byte) : byteOf (packWord b0 b1 b2 b3) 0 = b0 := by
  refine BitVec.eq_of_getLsbD_eq fun k hk => ?_
  rw [byteOf, BitVec.getLsbD_extractLsb', getLsbD_packWord]
  simp [hk]

theorem byteOf_packWord_1 (b0 b1 b2 b3 : Byte) : byteOf (packWord b0 b1 b2 b3) 1 = b1 := by
  refine BitVec.eq_of_getLsbD_eq fun k hk => ?_
  rw [byteOf, BitVec.getLsbD_extractLsb', getLsbD_packWord]
  simp [hk, show 8 + k < 16 by omega]

theorem byteOf_packWord_2 (b0 b1 b2 b3 : Byte) : byteOf (packWord b0 b1 b2 b3) 2 = b2 := by
  refine BitVec.eq_of_getLsbD_eq fun k hk => ?_
  rw [byteOf, BitVec.getLsbD_extractLsb', getLsbD_packWord]
  simp [hk, show ¬ 16 + k < 8 by omega, show 16 + k < 24 by omega]

theorem byteOf_packWord_3 (b0 b1 b2 b3 : Byte) : byteOf (packWord b0 b1 b2 b3) 3 = b3 := by
  refine BitVec.eq_of_getLsbD_eq fun k hk => ?_
  rw [byteOf, BitVec.getLsbD_extractLsb', getLsbD_packWord]
  simp [hk, show ¬ 24 + k < 8 by omega, show ¬ 24 + k < 16 by omega]

/-- A word is its four bytes. -/
theorem packWord_byteOf (w : Word) : packWord (byteOf w 0) (byteOf w 1) (byteOf w 2) (byteOf w 3) = w := by
  refine BitVec.eq_of_getLsbD_eq fun k hk => ?_
  simp only [getLsbD_packWord, byteOf, BitVec.getLsbD_extractLsb']
  split
  · simp [*]
  · split
    · simp [show k - 8 < 8 by omega, show 8 + (k - 8) = k by omega]
    · split
      · simp [show k - 16 < 8 by omega, show 16 + (k - 16) = k by omega]
      · simp [show k - 24 < 8 by omega, show 24 + (k - 24) = k by omega]

theorem blkOfBytes_getElem (g : Fin 64 → Byte) (j : Nat) (hj : j < 16) :
    (blkOfBytes g)[j] = packWord (g ⟨4 * j, by omega⟩) (g ⟨4 * j + 1, by omega⟩)
      (g ⟨4 * j + 2, by omega⟩) (g ⟨4 * j + 3, by omega⟩) := by
  simp [blkOfBytes]

/-- Reading byte n of a block made of bytes (R56). -/
@[simp] theorem blkByte_blkOfBytes (g : Fin 64 → Byte) (n : Fin 64) : blkByte (blkOfBytes g) n = g n := by
  obtain ⟨n, hn⟩ := n
  simp only [blkByte, blkOfBytes_getElem _ _ (show n / 4 < 16 by omega)]
  have h : n % 4 = 0 ∨ n % 4 = 1 ∨ n % 4 = 2 ∨ n % 4 = 3 := by omega
  rcases h with h | h | h | h
  · rw [h, byteOf_packWord_0]; congr 2; omega
  · rw [h, byteOf_packWord_1]; congr 2; omega
  · rw [h, byteOf_packWord_2]; congr 2; omega
  · rw [h, byteOf_packWord_3]; congr 2; omega

/-- A block is made of its bytes. -/
theorem blkOfBytes_blkByte (blk : Vector Word 16) : blkOfBytes (blkByte blk) = blk := by
  ext1 j hj
  rw [blkOfBytes_getElem _ _ hj]
  have h0 : (4 * j) / 4 = j := by omega
  have h1 : (4 * j + 1) / 4 = j := by omega
  have h2 : (4 * j + 2) / 4 = j := by omega
  have h3 : (4 * j + 3) / 4 = j := by omega
  simp only [blkByte, h0, h1, h2, h3]
  rw [show 4 * j % 4 = 0 by omega, show (4 * j + 1) % 4 = 1 by omega,
    show (4 * j + 2) % 4 = 2 by omega, show (4 * j + 3) % 4 = 3 by omega]
  exact packWord_byteOf _

/-- A word of the block is its four bytes. -/
theorem getElem_eq_packWord (blk : Vector Word 16) (j : Nat) (hj : j < 16) :
    blk[j] = packWord (blkByte blk ⟨4 * j, by omega⟩) (blkByte blk ⟨4 * j + 1, by omega⟩)
      (blkByte blk ⟨4 * j + 2, by omega⟩) (blkByte blk ⟨4 * j + 3, by omega⟩) := by
  conv_lhs => rw [← blkOfBytes_blkByte blk]
  exact blkOfBytes_getElem _ _ hj

/-- Words with the same four bytes are the same word. -/
theorem getElem_eq_of_bytes {x y : Vector Word 16} {j : Nat} (hj : j < 16)
    (h : ∀ n : Fin 64, n.val / 4 = j → blkByte x n = blkByte y n) : x[j] = y[j] := by
  rw [getElem_eq_packWord x j hj, getElem_eq_packWord y j hj]
  congr 1 <;> exact h _ (by dsimp only; omega)

/-- Two blocks with the same bytes are the same block. -/
theorem blk_ext {x y : Vector Word 16} (h : ∀ n, blkByte x n = blkByte y n) : x = y := by
  rw [← blkOfBytes_blkByte x, ← blkOfBytes_blkByte y, funext h]

@[simp] theorem blkByte_mapBlk (g : Fin 64 → Byte → Byte) (blk : Vector Word 16) (n : Fin 64) :
    blkByte (mapBlk g blk) n = g n (blkByte blk n) := by
  simp [mapBlk]

/-! ## The bytes of each padding -/

/-- Byte k of the length field as a number (R140, R141). -/
theorem lenByte_toNat (len : BitVec 64) (k : Nat) :
    (lenByte len k).toNat = (len.toNat * 8) % 2 ^ 64 / 256 ^ k % 256 := by
  simp only [lenByte, bitLen, BitVec.extractLsb'_toNat, BitVec.toNat_shiftLeft,
    Nat.shiftRight_eq_div_pow, Nat.shiftLeft_eq, Nat.pow_mul]

theorem blkByte_markAndZero (f last : Nat) (blk : Vector Word 16) (n : Fin 64) :
    blkByte (markAndZero f last blk) n =
      if n.val = f then 0x80 else if f < n.val ∧ n.val ≤ last then 0x00 else blkByte blk n := by
  simp [markAndZero]

theorem blkByte_putLen (len : BitVec 64) (blk : Vector Word 16) (n : Fin 64) :
    blkByte (putLen len blk) n = if 56 ≤ n.val then lenByte len (n.val - 56) else blkByte blk n := by
  simp [putLen]

theorem blkByte_padLenOnly (len : BitVec 64) (blk : Vector Word 16) (n : Fin 64) :
    blkByte (padLenOnly len blk) n = if 56 ≤ n.val then lenByte len (n.val - 56) else 0x00 := by
  rw [padLenOnly, blkByte_putLen, blkByte_mapBlk]
  split
  · rfl
  · rw [if_pos (by omega)]

theorem blkByte_pad80Len (len : BitVec 64) (blk : Vector Word 16) (n : Fin 64) :
    blkByte (pad80Len len blk) n =
      if 56 ≤ n.val then lenByte len (n.val - 56) else if n.val = 0 then 0x80 else 0x00 := by
  rw [pad80Len, blkByte_putLen, blkByte_markAndZero]
  split
  · rfl
  · split
    · rfl
    · rw [if_pos (by omega)]

/-- The byte of a block after one word is written (R176). -/
theorem blkByte_set (blk : Vector Word 16) (j : Fin 16) (w : Word) (n : Fin 64) :
    blkByte (blk.set j.val w) n =
      if n.val / 4 = j.val then byteOf w (n.val % 4) else blkByte blk n := by
  simp only [blkByte, Vector.getElem_set]
  by_cases h : j.val = n.val / 4
  · simp [h]
  · simp [h, Ne.symm h]

end Sys2Proof.Machine
end

