-- ==== Sys2Proof/Laws/Step.lean ====
section
/-! SUPPORT. What one move, and one step, can do: each agent's turn inverted once. -/

namespace Sys2Proof.Machine

theorem coreTurn_outOfReset {s : State} (h : s.rst = false) :
    coreTurn s = { s with regs := s.regs.coreStep } := by simp [coreTurn, h]

theorem coreTurn_inReset {s : State} (h : s.rst = true) : coreTurn s = s := by simp [coreTurn, h]

/-- An access under reset has no effect (R232). -/
theorem hostAccess_inReset {s : State} (h : s.rst = true) (a : Access) :
    hostAccess a s = .next (noteExchange a { s with reply := { rdata := 0, err := false } }) := by
  simp [hostAccess, h]

/-- An access out of reset is the meaning of its row, noted in the host's record. -/
theorem hostAccess_of_exec {s t : State} (h : s.rst = false) {a : Access}
    (ht : exec (decodeAccess a) s = .next t) : hostAccess a s = .next (noteExchange a t) := by
  simp [hostAccess, h, ht]

/-- What an access can do: it touches neither rst nor the pending moves, adds one exchange to the record,
and changes the registers as its row can, or not at all under reset. -/
theorem hostAccess_cases (a : Access) (s : State) :
    ∃ t, hostAccess a s = .next t ∧ t.rst = s.rst ∧ t.moves = s.moves ∧ t.log = ⟨a, t.reply⟩ :: s.log ∧
      ((s.rst = true ∧ t.regs = s.regs) ∨
        (s.rst = false ∧ RegChange (decodeAccess a) s.regs t.regs)) := by
  cases h : s.rst with
  | true => exact ⟨_, hostAccess_inReset h a, h, rfl, rfl, .inl ⟨rfl, rfl⟩⟩
  | false =>
    obtain ⟨t, ht, h1, h2, h3, hc⟩ := exec_cases (decodeAccess a) s
    exact ⟨_, hostAccess_of_exec h ht, h1.trans h, h2, by simp [h3], .inr ⟨rfl, hc⟩⟩

theorem decodeAccess_readStatus : decodeAccess (.read .status) = .rdStatus := by decide

/-- A read of STATUS answers STATUS, or 0 under reset, and changes no register. -/
theorem hostAccess_readStatus (s : State) :
    hostAccess (.read .status) s =
      .next (noteExchange (.read .status)
        { s with reply := { rdata := if s.rst then 0 else s.regs.status, err := false } }) := by
  by_cases h : s.rst = true
  · rw [hostAccess_inReset h, if_pos h]
  · rw [hostAccess_of_exec (by simpa using h) (t := { s with reply := ⟨s.regs.status, false⟩ }), if_neg h]
    rw [decodeAccess_readStatus]
    rfl

/-- One round of POLL reads STATUS, and leaves the core's turn and another round pending while BUSY reads 1. -/
theorem hostPoll_cases (s : State) :
    ∃ t, hostPoll s = .next t ∧ t.rst = s.rst ∧ t.regs = s.regs ∧
      (t.moves = s.moves ∨ t.moves = .core :: .poll :: s.moves) := by
  simp only [hostPoll, hostAccess_readStatus]
  generalize (if s.rst = true then (0 : Word) else s.regs.status) = v
  split
  · exact ⟨_, rfl, rfl, rfl, .inr rfl⟩
  · exact ⟨_, rfl, rfl, rfl, .inl rfl⟩

theorem step_nil {s : State} (h : s.moves = []) : step s = .next (coreTurn s) := by simp [step, h]

theorem step_cons {s : State} {m : Move} {ms : List Move} (h : s.moves = m :: ms) :
    step s = perform m { s with moves := ms } := by simp [step, h]

/-- What a step can do to the registers and to rst. -/
inductive StepChange (s t : State) : Prop where
  /-- The core's turn. -/
  | core (hm : s.moves = [] ∨ ∃ ms, s.moves = .core :: ms) (hrst : t.rst = s.rst)
      (hregs : t.regs = if s.rst then s.regs else s.regs.coreStep)
  /-- rst is driven. -/
  | rst (level : Bool) (ms : List Move) (hm : s.moves = .rst level :: ms) (hrst : t.rst = level)
      (hregs : t.regs = if level || s.rst then Regs.reset else s.regs)
  /-- The host's access, out of reset. -/
  | access (a : Access) (ms : List Move) (hm : s.moves = .access a :: ms) (h0 : s.rst = false)
      (hrst : t.rst = s.rst) (hregs : RegChange (decodeAccess a) s.regs t.regs)
  /-- An access under reset, a round of POLL, or the clock stopped. -/
  | same (hrst : t.rst = s.rst) (hregs : t.regs = s.regs)

/-- Says once what a step does: it always answers a next state, and changes the registers and rst in one
of the ways of `StepChange`. -/
theorem step_cases (s : State) : ∃ t, step s = .next t ∧ StepChange s t := by
  cases hm : s.moves with
  | nil => exact ⟨_, step_nil hm, .core (.inl hm) (coreTurn_rst s) (coreTurn_regs s)⟩
  | cons m ms =>
    rw [step_cons hm]
    cases m with
    | access a =>
      obtain ⟨t, ht, h1, -, -, ⟨-, hr⟩ | ⟨h0, hc⟩⟩ := hostAccess_cases a { s with moves := ms }
      · exact ⟨t, ht, .same h1 hr⟩
      · exact ⟨t, ht, .access a ms hm h0 h1 hc⟩
    | poll =>
      obtain ⟨t, ht, h1, h2, -⟩ := hostPoll_cases { s with moves := ms }
      exact ⟨t, ht, .same h1 h2⟩
    | core =>
      refine ⟨_, rfl, .core (.inr ⟨ms, hm⟩) (coreTurn_rst _) (coreTurn_regs _)⟩
    | rst level => exact ⟨_, rfl, .rst level ms hm rfl rfl⟩
    | hold => exact ⟨_, rfl, .same rfl rfl⟩

/-- `step_cases` from an answer in hand. -/
theorem stepChange_of_step {s t : State} (h : step s = .next t) : StepChange s t := by
  obtain ⟨t', ht', hc⟩ := step_cases s
  rw [h] at ht'
  cases ht'
  exact hc

/-! ## Runs -/

/-- `run` is the host's own run of the core. -/
theorem run_eq_hostRun (k : Nat) (s : State) : run k s = Host.Core.run Sys2Proof.core k s := by
  induction k generalizing s with
  | zero => rfl
  | succ k ih =>
    obtain ⟨t, ht, -⟩ := step_cases s
    have ht' : Sys2Proof.core.step s = .next t := ht
    simp only [run, Host.Core.run, ht, ht', ih]
    rfl

theorem run_succ_of_step {s t : State} (h : step s = .next t) (k : Nat) : run (k + 1) s = run k t := by
  simp [run, h]

theorem run_add_of_run {k : Nat} {s t : State} (h : run k s = .next t) (n : Nat) :
    run (k + n) s = run n t := by
  induction k generalizing s with
  | zero => cases h; simp
  | succ k ih =>
    obtain ⟨u, hu, -⟩ := step_cases s
    rw [run_succ_of_step hu] at h
    rw [Nat.succ_add, run_succ_of_step hu]
    exact ih h

/-- With nothing pending and rst = 0, n steps are n core steps and nothing else (R106). -/
theorem run_alone {s : State} (hm : s.moves = []) (h0 : s.rst = false) (n : Nat) :
    run n s = .next { s with regs := Regs.coreStep^[n] s.regs } := by
  induction n generalizing s with
  | zero => rfl
  | succ n ih =>
    rw [run_succ_of_step (step_nil hm), coreTurn_outOfReset h0, ih (by simpa using hm) (by simpa using h0)]
    rfl

end Sys2Proof.Machine
end

