-- ==== Sys2Proof/Laws/CoreSteps.lean ====
section
/-! SUPPORT. The core's steps: each inverted once, and the 64 round steps of a compression as the fold of
canonical MD5. -/

namespace Sys2Proof.Machine

theorem coreStep_idle {r : Regs} (h : r.fsm = .idle) : r.coreStep = r := by simp [Regs.coreStep, h]

theorem coreStep_round {r : Regs} (h : r.fsm = .round) : r.coreStep = r.roundStep := by
  simp [Regs.coreStep, h]

theorem coreStep_accum {r : Regs} (h : r.fsm = .accum) : r.coreStep = r.accumulate := by
  simp [Regs.coreStep, h]

/-- What the accumulate step leaves, whatever CONT is (R106, R110). -/
theorem accumulate_frame (r : Regs) :
    r.accumulate.h = #v[r.h[0] + r.ra, r.h[1] + r.rb, r.h[2] + r.rc, r.h[3] + r.rd] ∧
      r.accumulate.len = r.len ∧ r.accumulate.cerr = r.cerr ∧ r.accumulate.ecode = r.ecode := by
  unfold Regs.accumulate Regs.continueFinal
  split <;> simp

theorem accumulate_doneBlock {r : Regs} (h : r.cont = .doneBlock) :
    r.accumulate = { r.addTuple with fsm := .idle } := by
  simp [Regs.accumulate, Regs.continueFinal, h]

theorem accumulate_doneFinal {r : Regs} (h : r.cont = .doneFinal) :
    r.accumulate = { r.addTuple with fsm := .idle, dvalid := true } := by
  simp [Regs.accumulate, Regs.continueFinal, h]

theorem accumulate_nextLenOnly {r : Regs} (h : r.cont = .nextLenOnly) :
    r.accumulate =
      { r.addTuple with blk := padLenOnly r.len r.blk, cont := .doneFinal }.startCompress := by
  simp [Regs.accumulate, Regs.continueFinal, h]

theorem accumulate_next80Len {r : Regs} (h : r.cont = .next80Len) :
    r.accumulate =
      { r.addTuple with blk := pad80Len r.len r.blk, cont := .doneFinal }.startCompress := by
  simp [Regs.accumulate, Regs.continueFinal, h]

/-- Recording an error and a core step touch different registers (R106, R200). -/
theorem coreStep_recordError (r : Regs) (e : ErrorCode) :
    (r.recordError e).coreStep = r.coreStep.recordError e := by
  unfold Regs.coreStep
  simp only [Regs.recordError_fsm]
  split
  · rfl
  · rfl
  · unfold Regs.accumulate Regs.continueFinal
    simp only [Regs.addTuple_cont, Regs.recordError_cont]
    split <;> rfl

/-- Iterating a core step n + 1 times is n times, and once more. -/
theorem iterate_coreStep_succ (n : Nat) (r : Regs) :
    Regs.coreStep^[n + 1] r = (Regs.coreStep^[n] r).coreStep :=
  Function.iterate_succ_apply' _ _ _

/-- The round steps from FSM = ROUND and RI = r, up to the 64 - r that reach the accumulate step (R107):
they change the working tuple, RI and FSM alone. -/
theorem iterate_roundSteps {r : Regs} (hf : r.fsm = .round) (n : Nat) (hn : n ≤ 64 - r.ri.toNat) :
    ∃ a b c d, Regs.coreStep^[n] r =
      { r with
        ra := a, rb := b, rc := c, rd := d, ri := BitVec.ofNat 6 (r.ri.toNat + n)
        fsm := if r.ri.toNat + n = 64 then .accum else .round } := by
  have hri : r.ri.toNat < 64 := r.ri.isLt
  induction n with
  | zero =>
    refine ⟨r.ra, r.rb, r.rc, r.rd, ?_⟩
    rw [if_neg (by omega), ← hf]
    simp
  | succ n ih =>
    obtain ⟨a, b, c, d, h⟩ := ih (by omega)
    rw [iterate_coreStep_succ, h, if_neg (by omega), coreStep_round rfl]
    refine ⟨d, roundValue (BitVec.ofNat 6 (r.ri.toNat + n)) r.blk a b c d, b, c, ?_⟩
    unfold Regs.roundStep
    have h1 : BitVec.ofNat 6 (r.ri.toNat + n) + 1 = BitVec.ofNat 6 (r.ri.toNat + (n + 1)) := by
      rw [← Nat.add_assoc, BitVec.ofNat_add (r.ri.toNat + n) 1]; rfl
    have h2 : (BitVec.ofNat 6 (r.ri.toNat + n) = 63) ↔ (r.ri.toNat + (n + 1) = 64) := by
      rw [← BitVec.toNat_inj, BitVec.toNat_ofNat, Nat.mod_eq_of_lt (by omega)]
      show _ = 63 ↔ _
      omega
    simp only [h1, h2]

theorem canonical_steps_succ (h : Vector Word 4) (x : Vector Word 16) (n : Nat) :
    Canonical.steps h x (n + 1) = Canonical.stepAt x (Canonical.steps h x n) n := by
  simp [Canonical.steps, List.range_succ]

/-- The first n round steps of a compression are the first n steps of canonical MD5 (R109). -/
theorem iterate_fromStart (r : Regs) (n : Nat) (hn : n ≤ 64) :
    Regs.coreStep^[n] r.startCompress =
      { r with
        ra := (Canonical.steps r.h r.blk n).a, rb := (Canonical.steps r.h r.blk n).b
        rc := (Canonical.steps r.h r.blk n).c, rd := (Canonical.steps r.h r.blk n).d
        ri := BitVec.ofNat 6 n, fsm := if n = 64 then .accum else .round } := by
  induction n with
  | zero => rfl
  | succ n ih =>
    rw [iterate_coreStep_succ, ih (by omega), if_neg (by omega), coreStep_round rfl, canonical_steps_succ]
    unfold Regs.roundStep Canonical.stepAt
    have h1 : BitVec.ofNat 6 n + 1 = BitVec.ofNat 6 (n + 1) := by rw [BitVec.ofNat_add]; rfl
    have h2 : (BitVec.ofNat 6 n = 63) ↔ (n + 1 = 64) := by
      rw [← BitVec.toNat_inj, BitVec.toNat_ofNat, Nat.mod_eq_of_lt (by omega)]
      show n = 63 ↔ _
      omega
    simp only [h1, h2]

/-- The 65 core steps of one compression: H becomes canonical MD5's compression of the working block, and
Continue then acts by CONT (R107, R110, R111). -/
theorem iterate_compression (r : Regs) :
    Regs.coreStep^[65] r.startCompress =
      { r with
        h := Canonical.compress r.h r.blk
        ra := (Canonical.steps r.h r.blk 64).a, rb := (Canonical.steps r.h r.blk 64).b
        rc := (Canonical.steps r.h r.blk 64).c, rd := (Canonical.steps r.h r.blk 64).d
        ri := 0, fsm := .accum : Regs }.continueFinal := by
  rw [iterate_coreStep_succ, iterate_fromStart r 64 (le_refl _), if_pos rfl, coreStep_accum rfl]
  rfl

/-- Continue never touches H, LEN or the error record (R111). -/
theorem continueFinal_frame (r : Regs) :
    r.continueFinal.h = r.h ∧ r.continueFinal.len = r.len ∧ r.continueFinal.cerr = r.cerr ∧
      r.continueFinal.ecode = r.ecode := by
  unfold Regs.continueFinal
  split <;> simp

/-- The compression with the final tuple left unnamed: nothing here unfolds the 64 steps. -/
theorem iterate_compression_ex (r : Regs) :
    ∃ a b c d, Regs.coreStep^[65] r.startCompress =
      { r with
        h := Canonical.compress r.h r.blk, ra := a, rb := b, rc := c, rd := d, ri := 0
        fsm := .accum : Regs }.continueFinal :=
  ⟨_, _, _, _, iterate_compression r⟩

/-- The first block of FINAL 56 to 63 ends by starting the second (R111, R146). -/
theorem iterate_compression_nextLenOnly {r : Regs} (hc : r.cont = .nextLenOnly) :
    Regs.coreStep^[65] r.startCompress =
      { r with
        h := Canonical.compress r.h r.blk, blk := padLenOnly r.len r.blk
        cont := .doneFinal : Regs }.startCompress := by
  obtain ⟨a, b, c, d, h⟩ := iterate_compression_ex r
  rw [h]
  simp only [Regs.continueFinal, hc, Regs.startCompress]

/-- The first block of FINAL 64 ends by starting the second (R111, R147). -/
theorem iterate_compression_next80Len {r : Regs} (hc : r.cont = .next80Len) :
    Regs.coreStep^[65] r.startCompress =
      { r with
        h := Canonical.compress r.h r.blk, blk := pad80Len r.len r.blk
        cont := .doneFinal : Regs }.startCompress := by
  obtain ⟨a, b, c, d, h⟩ := iterate_compression_ex r
  rw [h]
  simp only [Regs.continueFinal, hc, Regs.startCompress]

/-- H after the 65 core steps of one compression. -/
theorem iterate_compression_h (r : Regs) :
    (Regs.coreStep^[65] r.startCompress).h = Canonical.compress r.h r.blk := by
  rw [iterate_compression, (continueFinal_frame _).1]

/-- The 65 core steps of a compression after which the core goes idle leave the block. -/
theorem iterate_compression_blk {r : Regs} (h : r.cont = .doneBlock ∨ r.cont = .doneFinal) :
    (Regs.coreStep^[65] r.startCompress).blk = r.blk := by
  rw [iterate_compression]
  unfold Regs.continueFinal
  rcases h with h | h <;> simp only [h]

/-- While a compression runs the core is busy, for the first 64 of its 65 steps. -/
theorem busy_fromStart (r : Regs) (n : Nat) (hn : n ≤ 64) :
    (Regs.coreStep^[n] r.startCompress).busy = true := by
  rw [iterate_fromStart r n hn, busy_eq_true_iff]
  dsimp only
  split <;> decide

end Sys2Proof.Machine
end

