-- ==== Sys2Proof/Laws/HostProgram.lean ====
section
/-! SUPPORT. The end of a run (42_control_and_readout.md R186): what one more access does to the search. -/

namespace Sys2Proof.Machine

/-- What the host has read once an unfinished record has been searched. -/
def readoutAfter : Option Readout → List Exchange → Option Readout
  | o, [] => o
  | none, x :: xs =>
    if x.access.good && decodeAccess x.access == .rdStatus &&
        !x.reply.rdata.getLsbD 0 && x.reply.rdata.getLsbD 1 then
      readoutAfter (some { d0 := none, d1 := none, d2 := none }) xs
    else readoutAfter none xs
  | some o, x :: xs =>
    if decodeAccess x.access = .rdDigest 0 then readoutAfter (some { o with d0 := some x.reply.rdata }) xs
    else if decodeAccess x.access = .rdDigest 1 then
      readoutAfter (some { o with d1 := some x.reply.rdata }) xs
    else if decodeAccess x.access = .rdDigest 2 then
      readoutAfter (some { o with d2 := some x.reply.rdata }) xs
    else readoutAfter (some o) xs

/-- The search goes on from a record that ends no run as if it began there. -/
theorem findResult_append {o : Option Readout} {xs : List Exchange} (h : findResult o xs = none)
    (ys : List Exchange) : findResult o (xs ++ ys) = findResult (readoutAfter o xs) ys := by
  induction xs generalizing o with
  | nil => cases o <;> rfl
  | cons x xs ih =>
    cases o with
    | none =>
      rw [List.cons_append]
      simp only [findResult, readoutAfter] at h ⊢
      split <;> rename_i hx
      · rw [if_pos hx] at h; exact ih h
      · rw [if_neg hx] at h; exact ih h
    | some o =>
      rw [List.cons_append]
      simp only [findResult, readoutAfter] at h ⊢
      split <;> rename_i h0
      · rw [if_pos h0] at h; exact ih h
      rw [if_neg h0] at h
      split <;> rename_i h1
      · rw [if_pos h1] at h; exact ih h
      rw [if_neg h1] at h
      split <;> rename_i h2
      · rw [if_pos h2] at h; exact ih h
      rw [if_neg h2] at h
      split at h <;> rename_i h3
      · rw [if_pos h3]
        split at h <;> first | cases h | exact ih h
      · rw [if_neg h3]; exact ih h

end Sys2Proof.Machine
end

