-- ==== Sys2Proof/Laws/Md5.lean ====
section
/-! SUPPORT. Canonical MD5 on messages: blocks of a concatenation, the bytes of a padded message, and the
length field. -/

namespace Sys2Proof.Canonical

open Sys2Proof.Machine

theorem blockAt_append_left (m b : List Byte) (i : Nat) (h : 64 * i + 64 ≤ m.length) :
    blockAt (m ++ b) i = blockAt m i := by
  refine blk_ext fun n => ?_
  simp only [blockAt, blkByte_blkOfBytes]
  rw [List.getD_append]
  omega

theorem blockAt_append_right (m b : List Byte) (i : Nat) (h : m.length % 64 = 0) :
    blockAt (m ++ b) (m.length / 64 + i) = blockAt b i := by
  refine blk_ext fun n => ?_
  simp only [blockAt, blkByte_blkOfBytes]
  rw [List.getD_append_right _ _ _ _ (by omega)]
  congr 1
  omega

/-- The blocks of whole blocks followed by more bytes. -/
theorem blocks_append (m b : List Byte) (h : m.length % 64 = 0) :
    blocks (m ++ b) = blocks m ++ blocks b := by
  unfold blocks
  rw [List.length_append, show (m.length + b.length) / 64 = m.length / 64 + b.length / 64 by omega,
    List.range_add, List.map_append, List.map_map]
  refine congrArg₂ (· ++ ·) ?_ ?_
  · exact List.map_congr_left fun i hi =>
      blockAt_append_left _ _ _ (by rw [List.mem_range] at hi; omega)
  · exact List.map_congr_left fun i _ => blockAt_append_right _ _ _ h

theorem absorb_append (x : Vector Word 4) (m b : List Byte) (h : m.length % 64 = 0) :
    absorb x (m ++ b) = absorb (absorb x m) b := by
  unfold absorb
  rw [blocks_append m b h, List.foldl_append]

theorem le64_length (n : Nat) : (le64 n).length = 8 := rfl

theorem le64_getD (n k : Nat) (hk : k < 8) : (le64 n).getD k 0 = BitVec.ofNat 8 (n / 256 ^ k) := by
  unfold le64
  interval_cases k <;> rfl

/-- The length field of a declared byte count is the little-endian bit-length (R58, R140). -/
theorem lenByte_ofNat (n k : Nat) (hk : k < 8) :
    lenByte (BitVec.ofNat 64 n) k = BitVec.ofNat 8 (8 * n / 256 ^ k) := by
  apply BitVec.eq_of_toNat_eq
  rw [lenByte_toNat, BitVec.toNat_ofNat, BitVec.toNat_ofNat,
    show n % 2 ^ 64 * 8 % 2 ^ 64 = 8 * n % 2 ^ 64 by omega,
    show (2 : Nat) ^ 64 = 256 ^ k * 256 ^ (8 - k) by
      rw [← Nat.pow_add, show k + (8 - k) = 8 by omega]; norm_num,
    Nat.mod_mul_right_div_self, Nat.mod_mod_of_dvd _ (dvd_pow_self _ (by omega))]

/-- The last bytes of a padded message: the tail after its whole blocks, 0x80, zeros, the length. -/
def paddedTail (t : List Byte) (total : Nat) : List Byte :=
  t ++ (0x80 :: (List.replicate (zeroCount t.length) 0 ++ le64 (8 * total)))

/-- Padding a message of whole blocks and a tail pads the tail. -/
theorem pad_append (m t : List Byte) (h : m.length % 64 = 0) :
    pad (m ++ t) = m ++ paddedTail t (m.length + t.length) := by
  have hz : zeroCount (m ++ t).length = zeroCount t.length := by
    unfold zeroCount
    rw [List.length_append]
    omega
  rw [pad, hz, paddedTail, List.append_assoc, List.length_append]

theorem paddedTail_length (t : List Byte) (total : Nat) :
    (paddedTail t total).length = t.length + 9 + zeroCount t.length := by
  simp [paddedTail, le64_length]
  omega

/-- Byte k of a padded tail. -/
theorem paddedTail_getD (t : List Byte) (total k : Nat) :
    (paddedTail t total).getD k 0 =
      if k < t.length then t.getD k 0 else if k = t.length then 0x80
      else if k < t.length + 1 + zeroCount t.length then 0
      else (le64 (8 * total)).getD (k - (t.length + 1 + zeroCount t.length)) 0 := by
  unfold paddedTail
  generalize zeroCount t.length = z
  split
  · rw [List.getD_append _ _ _ _ (by assumption)]
  rw [List.getD_append_right _ _ _ _ (by omega)]
  split
  · rename_i h
    rw [h]
    simp
  rw [show k - t.length = (k - t.length - 1) + 1 by omega, List.getD_cons_succ]
  split
  · rw [List.getD_append _ _ _ _ (by rw [List.length_replicate]; omega)]
    rw [List.getD_eq_getElem?_getD, List.getElem?_replicate, if_pos (by omega)]
    rfl
  · rw [List.getD_append_right _ _ _ _ (by rw [List.length_replicate]; omega), List.length_replicate]
    congr 1
    omega

end Sys2Proof.Canonical
end

