-- ==== Sys2Proof/Laws/Operands.lean ====
section
/-! SUPPORT. LEN and its halves, and the STATUS word as the row of its fields. -/

namespace Sys2Proof.Machine

/-! ## LEN -/

theorem getLsbD_lenOf (hi lo : Word) (k : Nat) :
    (lenOf hi lo).getLsbD k = if k < 32 then lo.getLsbD k else hi.getLsbD (k - 32) := by
  simp only [lenOf, BitVec.getLsbD_append]

@[simp] theorem lenLo_lenOf (hi lo : Word) : lenLo (lenOf hi lo) = lo := by
  refine BitVec.eq_of_getLsbD_eq fun k hk => ?_
  rw [lenLo, BitVec.getLsbD_extractLsb', getLsbD_lenOf]
  simp [hk]

@[simp] theorem lenHi_lenOf (hi lo : Word) : lenHi (lenOf hi lo) = hi := by
  refine BitVec.eq_of_getLsbD_eq fun k hk => ?_
  rw [lenHi, BitVec.getLsbD_extractLsb', getLsbD_lenOf]
  simp [hk]

@[simp] theorem lenOf_lenHi_lenLo (len : BitVec 64) : lenOf (lenHi len) (lenLo len) = len := by
  refine BitVec.eq_of_getLsbD_eq fun k hk => ?_
  rw [getLsbD_lenOf, lenHi, lenLo, BitVec.getLsbD_extractLsb', BitVec.getLsbD_extractLsb']
  split
  · simp [*]
  · rw [show 32 + (k - 32) = k by omega]; simp; omega

/-! ## STATUS -/

/-- STATUS is its fields side by side, the reserved bits 0 (R33). -/
theorem status_eq_fields (r : Regs) :
    r.status = (0 : BitVec 14) ++ r.cont.bits ++ r.fsm.bits ++ r.ri ++ r.ecode.bits ++ (0 : BitVec 1) ++
      BitVec.ofBool r.cerr ++ BitVec.ofBool r.dvalid ++ BitVec.ofBool r.busy := by
  unfold Regs.status
  generalize r.cont.bits = c
  generalize r.fsm.bits = f
  generalize r.ri = i
  generalize r.ecode.bits = e
  generalize BitVec.ofBool r.cerr = x
  generalize BitVec.ofBool r.dvalid = y
  generalize BitVec.ofBool r.busy = z
  refine BitVec.eq_of_getLsbD_eq fun k hk => ?_
  simp only [BitVec.getLsbD_or, BitVec.getLsbD_shiftLeft, BitVec.getLsbD_setWidth, BitVec.getLsbD_append]
  interval_cases k <;> simp

end Sys2Proof.Machine
end

