-- ==== Sys2Proof/Laws/PerInstr.lean ====
section
/-! SUPPORT. Statements made per instruction. Family `TableRow`: the bits the encoder lays down are those
of the instruction's row of spec/opcode_table.json. -/

namespace Sys2Proof.Laws.TableRow

/-- The bits of the instruction's table word: the command word of a CMD row, the 12-bit access value of a
BUS row (30_encoding.md R80, R86). -/
def word (i : Instr) : BitVec 32 :=
  if i.isCommand then (encode i).wdata else (encode i).value.setWidth 32

/-- The row's columns "mask" and "match". -/
def columns : Instr → BitVec 32 × BitVec 32
  | .nop => (0xFFFFFFFF, 0x00000000)
  | .init => (0xFFFFFFFF, 0x00000001)
  | .block => (0xFFFFFFFF, 0x00000002)
  | .final _ => (0xFFFF80FF, 0x00000003)
  | .wrCmd _ => (0xFFF, 0xF80)
  | .rdCmd => (0xFFF, 0x780)
  | .rdStatus => (0xFFF, 0x784)
  | .wrStatus _ => (0xFFF, 0xF84)
  | .wrLenLo _ => (0xFFF, 0xF88)
  | .rdLenLo => (0xFFF, 0x788)
  | .wrLenHi _ => (0xFFF, 0xF8C)
  | .rdLenHi => (0xFFF, 0x78C)
  | .rdDigest _ => (0xFF3, 0x790)
  | .wrDigest _ _ => (0xFF3, 0xF90)
  | .rdReserved _ => (0xFE3, 0x7A0)
  | .wrReserved _ _ => (0xFE3, 0xFA0)
  | .wrBlk _ _ => (0xFC3, 0xFC0)
  | .rdBlk _ => (0xFC3, 0x7C0)
  | .badAccessNarrow _ _ _ _ => (0x000, 0x000)
  | .badAccessMisaligned _ _ _ => (0x000, 0x000)

/-- Whether the row stands for a good access (20_memory.md R53). -/
def goodRow : Instr → Bool
  | .badAccessNarrow _ _ _ _ => false
  | .badAccessMisaligned _ _ _ => false
  | _ => true

/-- The encoded bits match the row, and the access is good exactly on the rows other than BAD ACCESS. -/
def Statement (i : Instr) : Prop :=
  i.wf = true → word i &&& (columns i).1 = (columns i).2 ∧ (encode i).good = goodRow i

/-- The statement as a test on the bits. -/
theorem statement_of_bits (i : Instr)
    (h : (word i &&& (columns i).1 == (columns i).2 && (encode i).good == goodRow i) = true) :
    Statement i := by
  simp only [Bool.and_eq_true, beq_iff_eq] at h
  exact fun _ => h

theorem nop : Statement .nop := statement_of_bits _ (by decide)
theorem init : Statement .init := statement_of_bits _ (by decide)
theorem block : Statement .block := statement_of_bits _ (by decide)
theorem final (f : BitVec 7) : Statement (.final f) := statement_of_bits _ (by revert f; decide)
theorem wrCmd (w : Word) : Statement (.wrCmd w) := statement_of_bits (.wrCmd 0) (by decide)
theorem rdCmd : Statement .rdCmd := statement_of_bits _ (by decide)
theorem rdStatus : Statement .rdStatus := statement_of_bits _ (by decide)
theorem wrStatus (w : Word) : Statement (.wrStatus w) := statement_of_bits (.wrStatus 0) (by decide)
theorem wrLenLo (w : Word) : Statement (.wrLenLo w) := statement_of_bits (.wrLenLo 0) (by decide)
theorem rdLenLo : Statement .rdLenLo := statement_of_bits _ (by decide)
theorem wrLenHi (w : Word) : Statement (.wrLenHi w) := statement_of_bits (.wrLenHi 0) (by decide)
theorem rdLenHi : Statement .rdLenHi := statement_of_bits _ (by decide)
theorem rdDigest (j : Fin 4) : Statement (.rdDigest j) := statement_of_bits _ (by revert j; decide)

theorem wrDigest (j : Fin 4) (w : Word) : Statement (.wrDigest j w) :=
  statement_of_bits (.wrDigest j 0) (by revert j; decide)

theorem rdReserved (x : Fin 8) : Statement (.rdReserved x) := statement_of_bits _ (by revert x; decide)

theorem wrReserved (x : Fin 8) (w : Word) : Statement (.wrReserved x w) :=
  statement_of_bits (.wrReserved x 0) (by revert x; decide)

theorem wrBlk (j : Fin 16) (w : Word) : Statement (.wrBlk j w) :=
  statement_of_bits (.wrBlk j 0) (by revert j; decide)

theorem rdBlk (j : Fin 16) : Statement (.rdBlk j) := statement_of_bits _ (by revert j; decide)

theorem badAccessNarrow (we : Bool) (be : BitVec 4) (addr : BitVec 7) (wdata : Word) :
    Statement (.badAccessNarrow we be addr wdata) := by
  intro h
  have hb : (be == 0xF) = false := by simpa [Instr.wf] using h
  exact ⟨BitVec.and_zero, by simp only [Access.good, encode, goodRow, hb, Bool.false_and]⟩

theorem badAccessMisaligned (we : Bool) (addr : BitVec 7) (wdata : Word) :
    Statement (.badAccessMisaligned we addr wdata) := by
  intro h
  have ha : (addr.extractLsb' 0 2 == 0) = false := by simpa [Instr.wf] using h
  exact ⟨BitVec.and_zero, by simp only [Access.good, encode, goodRow, ha, Bool.and_false]⟩

end Sys2Proof.Laws.TableRow
end

