-- ==== Sys2Proof/Laws/Platform.lean ====
section
/-! SUPPORT. The windows of the cores: each its own, and where an address is routed. -/

namespace Sys2Proof.Machine

/-- An address is selected at an offset exactly if it is BASE plus that offset (R10, R50). -/
theorem windowOffset_eq_some_iff (k address : Nat) (off : BitVec 7) :
    windowOffset k address = some off ↔ address = Config.base k + off.toNat := by
  have hoff := off.isLt
  unfold windowOffset
  split
  · rename_i h
    rw [Option.some.injEq, ← BitVec.toNat_inj, BitVec.toNat_ofNat, Nat.mod_eq_of_lt (by omega)]
    omega
  · rename_i h
    simp only [reduceCtorEq, false_iff]
    omega

/-- Two windows that share an address are one window (R215). -/
theorem window_unique {j k address : Nat} {o o' : BitVec 7} (hj : windowOffset j address = some o)
    (hk : windowOffset k address = some o') : j = k := by
  rw [windowOffset_eq_some_iff] at hj hk
  have := o.isLt
  have := o'.isLt
  unfold Config.base at hj hk
  exact Config.windowIndex.injective (by omega)

theorem windowOffset_other {j k address : Nat} {o : BitVec 7} (hk : windowOffset k address = some o)
    (h : j ≠ k) : windowOffset j address = none := by
  cases hj : windowOffset j address with
  | none => rfl
  | some o' => exact absurd (window_unique hj hk) h

/-- What `route` answers: the one core whose window holds the address. -/
theorem route_eq_some_iff {n : Nat} (address : Nat) (k : Fin n) (off : BitVec 7) :
    route n address = some (k, off) ↔ windowOffset k address = some off := by
  have aux : ∀ l : List (Fin n),
      (l.findSome? fun k : Fin n => (windowOffset k.val address).map fun off => (k, off)) = some (k, off) ↔
        k ∈ l ∧ windowOffset k address = some off := by
    intro l
    induction l with
    | nil => simp
    | cons j l ih =>
      cases hj : windowOffset j address with
      | none =>
        simp only [List.findSome?_cons, hj, Option.map_none, ih, List.mem_cons]
        constructor
        · rintro ⟨h1, h2⟩; exact ⟨.inr h1, h2⟩
        · rintro ⟨rfl | h1, h2⟩
          · simp [hj] at h2
          · exact ⟨h1, h2⟩
      | some o =>
        simp only [List.findSome?_cons, hj, Option.map_some, List.mem_cons, Option.some.injEq, Prod.mk.injEq]
        constructor
        · rintro ⟨rfl, rfl⟩; exact ⟨.inl rfl, hj⟩
        · rintro ⟨-, h2⟩
          obtain rfl : j = k := Fin.ext (window_unique hj h2)
          rw [hj] at h2
          exact ⟨rfl, Option.some.inj h2⟩
  simpa [route] using aux (List.finRange n)

/-- An address outside every window is routed nowhere. -/
theorem route_eq_none {n address : Nat} (h : ∀ j : Fin n, windowOffset j address = none) :
    route n address = none := by
  cases hr : route n address with
  | none => rfl
  | some x => exact absurd ((route_eq_some_iff address x.1 x.2).1 hr) (by simp [h])

/-- What `present` does to the core that owns the address: the access goes behind its pending moves. -/
theorem present_eq {n : Nat} {k : Fin n} {address : Nat} {off : BitVec 7}
    (h : windowOffset k address = some off) (we : Bool) (be : BitVec 4) (wdata : Word) (p : Platform n) :
    p.present we be address wdata =
      { cores := p.cores.set k.val
          { p.cores[k] with moves := p.cores[k].moves ++ [.access ⟨we, be, off, wdata⟩] } } := by
  simp [Platform.present, (route_eq_some_iff address k off).2 h]

end Sys2Proof.Machine
end

