-- ==== Sys2Proof/Tests/Slice0.lean ====
section
/-! SUPPORT. Tests and witnesses. Expected values come from spec/ (95_test_vectors.md V<n>, the tables of
30_encoding.md and 20_memory.md, the rules named); each witness shows values that meet the hypotheses of the
obligation it is named after, every clause at a boundary. -/

open Sys2Proof Sys2Proof.Machine

namespace Sys2Proof.Tests

/-! ## Helpers -/

/-- STATUS after an instruction. -/
def statusAfter : Result → Option Word
  | .next t => some t.regs.status
  | .fault _ => none
  | .refused _ => none

/-- The response after an instruction. -/
def replyAfter : Result → Option Reply
  | .next t => some t.reply
  | .fault _ => none
  | .refused _ => none

/-- A value of the registers after an instruction. -/
def regsAfter {α : Type} (f : Regs → α) : Result → Option α
  | .next t => some (f t.regs)
  | .fault _ => none
  | .refused _ => none

/-- The core after reset with other registers. -/
def withRegs (f : Regs → Regs) : State := { State.reset with regs := f State.reset.regs }

/-- The core after reset with pending moves. -/
def withMoves (ms : List Move) : State := { State.reset with moves := ms }

/-- A core that has just accepted BLOCK (V56: STATUS 0x00004001). -/
def busy : State := withRegs Regs.acceptBlock

/-- A core about to accumulate. -/
def accum (c : Cont) : State := withRegs fun r => { r with fsm := .accum, cont := c }

/-- A finished core (STATUS 0x00010002). -/
def finished : State := withRegs fun r => { r with cont := .doneFinal, dvalid := true }

/-- A core with a recorded error. -/
def failed : State := withRegs fun r => { r with cerr := true, ecode := .busy }

/-- The start state of V13 at step i. -/
def v13 (i : BitVec 6) : Regs :=
  { Regs.reset with
    ra := 0x67452301, rb := 0xefcdab89, rc := 0x98badcfe, rd := 0x10325476, ri := i, fsm := .round
    blk := blkOfBytes fun n => BitVec.ofNat 8 n.val }

/-- RA, RB, RC, RD. -/
def tuple (r : Regs) : List Word := [r.ra, r.rb, r.rc, r.rd]

/-- Holding "abc" and its length, as V2 has it before FINAL 3. -/
def abcLoaded : State := withRegs fun r => { r with blk := r.blk.set 0 0x00636261, len := 3 }

/-! ## Well-formedness (each condition of WellFormed.lean refuses a term) -/

theorem test_wf_narrow : Instr.wf (.badAccessNarrow true 0xF 0x41 0) = false := by decide
theorem test_wf_misaligned : Instr.wf (.badAccessMisaligned false 0x44 0) = false := by decide
theorem test_wf_narrow_ok : Instr.wf (.badAccessNarrow true 0x3 0x40 2) = true := by decide
theorem test_wf_misaligned_ok : Instr.wf (.badAccessMisaligned true 0x41 1) = true := by decide

/-! ## Decoding: every row, its word written out from the row's encoding -/

theorem test_decode_nop : decodeTableWord 32 0b00000000000000000000000000000000 = some .nop := by decide
theorem test_decode_init : decodeTableWord 32 0b00000000000000000000000000000001 = some .init := by decide
theorem test_decode_block : decodeTableWord 32 0b00000000000000000000000000000010 = some .block := by decide
theorem test_decode_final :
    decodeTableWord 32 0b00000000000000000010101100000011 = some (.final 43) := by decide
theorem test_decode_wrCmd : decodeTableWord 16 0b111110000000 = some (.wrCmd 0) := by decide
theorem test_decode_rdCmd : decodeTableWord 16 0b011110000000 = some .rdCmd := by decide
theorem test_decode_rdStatus : decodeTableWord 16 0b011110000100 = some .rdStatus := by decide
theorem test_decode_wrStatus : decodeTableWord 16 0b111110000100 = some (.wrStatus 0) := by decide
theorem test_decode_wrLenLo : decodeTableWord 16 0b111110001000 = some (.wrLenLo 0) := by decide
theorem test_decode_rdLenLo : decodeTableWord 16 0b011110001000 = some .rdLenLo := by decide
theorem test_decode_wrLenHi : decodeTableWord 16 0b111110001100 = some (.wrLenHi 0) := by decide
theorem test_decode_rdLenHi : decodeTableWord 16 0b011110001100 = some .rdLenHi := by decide
theorem test_decode_rdDigest : decodeTableWord 16 0b011110011000 = some (.rdDigest 2) := by decide
theorem test_decode_wrDigest : decodeTableWord 16 0b111110010100 = some (.wrDigest 1 0) := by decide
theorem test_decode_rdReserved : decodeTableWord 16 0b011110110100 = some (.rdReserved 5) := by decide
theorem test_decode_wrReserved : decodeTableWord 16 0b111110111000 = some (.wrReserved 6 0) := by decide
theorem test_decode_wrBlk : decodeTableWord 16 0b111111101100 = some (.wrBlk 11 0) := by decide
theorem test_decode_rdBlk : decodeTableWord 16 0b011111011000 = some (.rdBlk 6) := by decide
theorem test_decode_narrow :
    decodeTableWord 16 0b100111000000 = some (.badAccessNarrow true 0b0011 0x40 0) := by decide
theorem test_decode_misaligned :
    decodeTableWord 16 0b011110000110 = some (.badAccessMisaligned false 0x06 0) := by decide

/-- The 12-bit width of the table is taken as well as its 16 whole bits. -/
theorem test_decode_width12 : decodeTableWord 12 0xFFC = some (.wrBlk 15 0) := by decide

/-- Words no CMD row matches are rejected (R83, R84). -/
theorem test_decode_reserved :
    [decodeTableWord 32 0x00000004, decodeTableWord 32 0x00000100, decodeTableWord 32 0x80000000] =
      [none, none, none] := by decide

/-- The priority check of V5C: a reserved OP with FILLED not 0. -/
theorem test_decode_priority : decodeCommand 0x00004104 = .error .reservedOp := by decide

/-! ## Fetching a table word -/

theorem test_fetch_final :
    statusAfter (step (State.reset.withFetchWord 32 0x00003803)) = some 0x00024001 := by decide

theorem test_fetch_rdDigest :
    replyAfter (step (State.reset.withFetchWord 16 0x79C)) = some ⟨0x10325476, false⟩ := by decide

/-! ## Operands and tables -/

/-- V10, last row. -/
theorem test_v10 :
    [mix 0 0x12345678 0x9abcdef0 0x0fedcba9, mix 1 0x12345678 0x9abcdef0 0x0fedcba9,
      mix 2 0x12345678 0x9abcdef0 0x0fedcba9, mix 3 0x12345678 0x9abcdef0 0x0fedcba9] =
      [0x1ffddff1, 0x92345678, 0x87654321, 0x688aa88e] := by decide

/-- V10, corner case. -/
theorem test_v10_corner : mix 3 0 0 0 = 0xffffffff := by decide

/-- V11. -/
theorem test_v11 :
    [rol32 0x80000001 7, rol32 0x12345678 4, rol32 0x12345678 23, rol32 1 21, rol32 0xd76aa478 22] =
      [0x000000c0, 0x23456781, 0x3c091a2b, 0x00200000, 0x1e35daa9] := by decide

/-- V12. -/
theorem test_v12 :
    [(0 : BitVec 6), 1, 15, 16, 17, 31, 32, 33, 47, 48, 49, 63].map
        (fun i => (((kIndex i).val, sAmount i, tConst i) : Nat × Nat × Word)) =
      [(0, 7, 0xD76AA478), (1, 12, 0xE8C7B756), (15, 22, 0x49B40821), (1, 5, 0xF61E2562),
       (6, 9, 0xC040B340), (12, 20, 0x8D2A4C8A), (5, 4, 0xFFFA3942), (8, 11, 0x8771F681),
       (2, 23, 0xC4AC5665), (0, 6, 0xF4292244), (7, 10, 0x432AFF97), (9, 21, 0xEB86D391)] := by decide

/-- V13, each group. -/
theorem test_v13 :
    [(0 : BitVec 6), 16, 32, 48, 63].map (fun i => tuple (v13 i).coreStep) =
      [[0x10325476, 0x26206776, 0xefcdab89, 0x98badcfe], [0x10325476, 0x8e086986, 0xefcdab89, 0x98badcfe],
       [0x10325476, 0x4976f117, 0xefcdab89, 0x98badcfe], [0x10325476, 0x69bd1abe, 0xefcdab89, 0x98badcfe],
       [0x10325476, 0x558bd8bb, 0xefcdab89, 0x98badcfe]] := by decide

/-- V13, the wrap of RI after step 63. -/
theorem test_v13_wrap :
    ((v13 63).coreStep.ri, (v13 63).coreStep.fsm, (v13 16).coreStep.ri, (v13 16).coreStep.fsm) =
      ((0, .accum, 17, .round) : BitVec 6 × Fsm × BitVec 6 × Fsm) := by decide

/-- V41 to V46: BLK14 and BLK15 after FINAL 0. -/
theorem test_v41_to_v46 :
    [((0x00000000, 0x00000003) : Word × Word), (0x00000000, 0x20000000), (0x00000001, 0x00000000),
      (0x00000001, 0x23456789), (0x20000000, 0x00000000), (0xffffffff, 0xffffffff)].map
        (fun (hl : Word × Word) =>
          let b := (Regs.acceptFinal 0 { Regs.reset with len := lenOf hl.1 hl.2 }).blk
          (b[14], b[15])) =
      [((0x00000018, 0x00000000) : Word × Word), (0x00000000, 0x00000001), (0x00000000, 0x00000008),
       (0x1a2b3c48, 0x00000009), (0x00000000, 0x00000000), (0xfffffff8, 0xffffffff)] := by decide

/-! ## Instructions, one step each -/

/-- V62: NOP is accepted while busy and changes nothing. -/
theorem test_nop : statusAfter (exec .nop busy) = some 0x00004001 := by decide

/-- V5A: INIT after an error and a finished hash. -/
theorem test_init : regsAfter id (exec .init finished) = some Regs.reset := by decide

/-- V57: INIT does not abort. -/
theorem test_init_busy : statusAfter (exec .init busy) = some 0x00004025 := by decide

/-- V56. -/
theorem test_block : statusAfter (exec .block State.reset) = some 0x00004001 := by decide

/-- V59: BLOCK after completion. -/
theorem test_block_sequence : statusAfter (exec .block finished) = some 0x00010046 := by decide

/-- V2: the block after FINAL 3 on "abc". -/
theorem test_final : regsAfter (fun r => (r.blk[0], r.blk[13], r.blk[14], r.blk[15], r.status))
    (exec (.final 3) abcLoaded) =
      some ((0x80636261, 0, 0x00000018, 0, 0x00014001) : Word × Word × Word × Word × Word) := by decide

/-- V54 and the priority checks after V5C: FINAL 65 on an idle, a busy and a finished core; V5C: FINAL 64. -/
theorem test_final_checks :
    [statusAfter (exec (.final 65) State.reset), statusAfter (exec (.final 127) State.reset),
      statusAfter (exec (.final 65) busy), statusAfter (exec (.final 65) finished),
      statusAfter (exec (.final 64) State.reset)] =
      [some 0x00000034, some 0x00000034, some 0x00004025, some 0x00010046, some 0x00034001] := by decide

/-- V34 to V36: the first block of FINAL 56, 57 and 63 over zeros. -/
theorem test_final_two_blocks :
    [56, 57, 63].map (fun (f : BitVec 7) => let b := (Regs.acceptFinal f Regs.reset).blk; (b[14], b[15])) =
      [((0x00000080, 0) : Word × Word), (0x00008000, 0), (0, 0x80000000)] := by decide

/-- V33: FINAL 55 over zeros, LEN = 55. -/
theorem test_final_55 :
    (let b := (Regs.acceptFinal 55 { Regs.reset with len := 55 }).blk; (b[13], b[14], b[15])) =
      ((0x80000000, 0x000001b8, 0) : Word × Word × Word) := by decide

/-- V50 to V53. -/
theorem test_wrCmd_illegal :
    [0x00000004, 0x0000000F, 0x00000100, 0x00000010, 0x00008003, 0x00000102, 0x80000000].map
        (fun w => statusAfter (exec (.wrCmd w) State.reset)) = List.replicate 7 (some 0x00000014) := by decide

/-- V34's command word. -/
theorem test_wrCmd_final : statusAfter (exec (.wrCmd 0x00003803) State.reset) = some 0x00024001 := by decide

/-- V60. -/
theorem test_rdCmd : replyAfter (exec .rdCmd State.reset) = some ⟨0, false⟩ := by decide

/-- V56: STATUS of a core that has refused a BLOCK while busy. -/
theorem test_rdStatus :
    replyAfter (exec .rdStatus (withRegs fun r => { r.acceptBlock with cerr := true, ecode := .busy })) =
      some ⟨0x00004025, false⟩ := by decide

/-- V20: STATUS after round step 62 of "abc". -/
theorem test_rdStatus_rcnt :
    replyAfter (exec .rdStatus (withRegs fun r => { r with fsm := .round, ri := 63, cont := .doneFinal })) =
      some ⟨0x00017f01, false⟩ := by decide

/-- V64. -/
theorem test_wrStatus : statusAfter (exec (.wrStatus 0xFFFFFFFF) State.reset) = some 0 := by decide

/-- V61, with the other half not 0. -/
theorem test_wrLenLo : regsAfter (fun r => r.len)
    (exec (.wrLenLo 0x89ABCDEF) (withRegs fun r => { r with len := 0x0123456700000001 })) =
      some 0x0123456789ABCDEF := by decide

/-- V57. -/
theorem test_wrLenLo_busy : regsAfter (fun r => (r.len, r.status)) (exec (.wrLenLo 5) busy) =
    some ((0, 0x00004025) : BitVec 64 × Word) := by decide

theorem test_rdLenLo : replyAfter (exec .rdLenLo (withRegs fun r => { r with len := 0x0123456789ABCDEF })) =
    some ⟨0x89ABCDEF, false⟩ := by decide

/-- V61. -/
theorem test_wrLenHi : regsAfter (fun r => r.len)
    (exec (.wrLenHi 0x01234567) (withRegs fun r => { r with len := 0x0000000189ABCDEF })) =
      some 0x0123456789ABCDEF := by decide

theorem test_rdLenHi : replyAfter (exec .rdLenHi (withRegs fun r => { r with len := 0x0123456789ABCDEF })) =
    some ⟨0x01234567, false⟩ := by decide

/-- V3. -/
theorem test_rdDigest :
    [0, 1, 2, 3].map (fun j => replyAfter (exec (.rdDigest j) State.reset)) =
      [some ⟨0x67452301, false⟩, some ⟨0xEFCDAB89, false⟩, some ⟨0x98BADCFE, false⟩,
       some ⟨0x10325476, false⟩] := by decide

/-- V64. -/
theorem test_wrDigest : regsAfter (fun r => (r.h[0], r.status)) (exec (.wrDigest 0 7) State.reset) =
    some ((0x67452301, 0) : Word × Word) := by decide

/-- V65. -/
theorem test_rdReserved : replyAfter (exec (.rdReserved 0) State.reset) = some ⟨0, false⟩ := by decide
theorem test_wrReserved : regsAfter id (exec (.wrReserved 0 0x1234) State.reset) = some Regs.reset := by
  decide

/-- The assembler's example of 20_memory.md R56: "abc" in BLK0, byte by byte. -/
theorem test_wrBlk : regsAfter (fun r => [blkByte r.blk 0, blkByte r.blk 1, blkByte r.blk 2, blkByte r.blk 3])
    (exec (.wrBlk 0 0x00636261) State.reset) = some [0x61, 0x62, 0x63, 0x00] := by decide

/-- V57. -/
theorem test_wrBlk_busy : regsAfter (fun r => (r.blk[0], r.status)) (exec (.wrBlk 0 5) busy) =
    some ((0, 0x00004025) : Word × Word) := by decide

theorem test_rdBlk : replyAfter (exec (.rdBlk 0) abcLoaded) = some ⟨0x00636261, false⟩ := by decide

/-- V55: `BAD WR 0x40, 0x3, 2`. -/
theorem test_narrow : regsAfter (fun r => (r.blk[0], r.status))
    (exec (.badAccessNarrow true 0x3 0x40 2) State.reset) = some ((0, 0x00000054) : Word × Word) := by decide

/-- V55: `BAD RD 0x06, 0xF` responds err = 1 and rdata 0; V5B: the first error is kept. -/
theorem test_misaligned :
    (replyAfter (exec (.badAccessMisaligned false 0x06 0) State.reset),
      statusAfter (exec (.badAccessMisaligned true 0x01 0) failed)) =
      (some ⟨0, true⟩, some 0x00000024) := by decide

/-! ## Core steps, the host, and canonical MD5 -/

/-- V20: the accumulate step of "abc". -/
theorem test_accumulate : (fun r : Regs => (r.h, r.status))
    ({ Regs.reset with
        ra := 0x310ade8f, rb := 0xc08226b3, rc := 0xe484b9d8, rd := 0x624d8cb2, fsm := .accum
        cont := .doneFinal }.coreStep) =
      ((#v[0x98500190, 0xb04fd23c, 0x7d3f96d6, 0x727fe128], 0x00010002) : Vector Word 4 × Word) := by decide

/-- V32: the second block after FINAL 64 on 64 zero bytes, LEN = 64. -/
theorem test_second_block : (fun r : Regs => (r.blk[0], r.blk[14], r.status))
    ({ Regs.reset with len := 64, fsm := .accum, cont := .next80Len }.coreStep) =
      ((0x00000080, 0x00000200, 0x00014001) : Word × Word × Word) := by decide

/-- V34: the second block after FINAL 56, LEN = 56. -/
theorem test_second_block_len : (fun r : Regs => (r.blk[0], r.blk[14], r.status))
    ({ Regs.reset with
        blk := Vector.replicate 16 0x80, len := 56, fsm := .accum, cont := .nextLenOnly }.coreStep) =
      ((0x00000000, 0x000001c0, 0x00014001) : Word × Word × Word) := by decide

/-- V1, V2: canonical MD5 of the empty message and of "abc". -/
theorem test_md5_empty : Canonical.md5 [] = #v[0xd98c1dd4, 0x04b2008f, 0x980980e9, 0x7e42f8ec] := by
  decide +kernel
theorem test_md5_abc :
    Canonical.md5 [0x61, 0x62, 0x63] = #v[0x98500190, 0xb04fd23c, 0x7d3f96d6, 0x727fe128] := by
  decide +kernel

/-- V1: the rendering of the digest. -/
theorem test_render : renderDigest #v[0xd98c1dd4, 0x04b2008f, 0x980980e9, 0x7e42f8ec] =
    "d41d8cd98f00b204e9800998ecf8427e" := by decide

/-- P2: FINAL 3 and LOADBLK as accesses. -/
theorem test_assembler :
    (programMoves [.final 3, .wrlen 65]) =
      [.access (.ofValue 0xF80 0x00000303), .access (.ofValue 0xF88 0x00000041),
       .access (.ofValue 0xF8C 0x00000000)] := by decide

/-! ## Witnesses: the hypotheses of the obligations -/

theorem witness_Ready : State.reset.Ready ∧ State.reset.moves = [] ∧ (64 : BitVec 7).toNat ≤ 64 :=
  ⟨⟨rfl, rfl, rfl⟩, rfl, by decide⟩

theorem witness_CommandLegalityTest :
    (((0x00007F03#32).extractLsb' 0 4).toNat ≤ 3 ∧ 0x00007F03#32 &&& 0xFFFF80F0#32 = 0 ∧
      (0x00007F03#32).extractLsb' 0 4 = 3) ∧
    (((0x00000002#32).extractLsb' 0 4).toNat ≤ 3 ∧ 0x00000002#32 &&& 0xFFFF80F0#32 = 0 ∧
      (0x00000002#32).extractLsb' 8 7 = 0) ∧
    ¬ ((0x00000004#32).extractLsb' 0 4).toNat ≤ 3 ∧
    ¬ (0x00008003#32 &&& 0xFFFF80F0#32 = 0) ∧
    ¬ ((0x00000102#32).extractLsb' 0 4 = 3 ∨ (0x00000102#32).extractLsb' 8 7 = 0) := by decide

theorem witness_EncodedInstructionDecodes :
    (Instr.wf (.final 127) = true ∧ Instr.isCommand (.final 127) = true) ∧
    (Instr.wf (.badAccessNarrow false 0xE 0x7F 9) = true ∧
      Instr.isCommand (.badAccessNarrow false 0xE 0x7F 9) = false) ∧
    (Instr.wf (.badAccessMisaligned true 0x7D 9) = true ∧
      Instr.isCommand (.badAccessMisaligned true 0x7D 9) = false) := by decide

theorem witness_WindowIsBasePlusOffset :
    (Config.base 0 + 127 = Config.base 0 + (127#7).toNat) ∧
    ∀ off : BitVec 7, Config.base 0 + 128 ≠ Config.base 0 + off.toNat :=
  ⟨rfl, fun off => by have := off.isLt; omega⟩

theorem witness_RolIsCircular : 1 ≤ 1 ∧ 31 ≤ 31 ∧ 31 < 32 := by decide

theorem witness_BlockBytesLittleEndian : ∀ j : Fin 16,
    (Vector.ofFn fun j : Fin 16 => 0x03020100#32 + 0x04040404#32 * BitVec.ofNat 32 j.val)[j] =
      (BitVec.ofNat 8 (4 * j.val)).setWidth 32 ||| (BitVec.ofNat 8 (4 * j.val + 1)).setWidth 32 <<< 8 |||
      (BitVec.ofNat 8 (4 * j.val + 2)).setWidth 32 <<< 16 |||
      (BitVec.ofNat 8 (4 * j.val + 3)).setWidth 32 <<< 24 := by decide

theorem witness_PutLenWritesBitLength :
    ((56 : Fin 64).val = 56 + (0 : Fin 8).val) ∧ ((63 : Fin 64).val = 56 + (7 : Fin 8).val) ∧
      (13 : Fin 16).val < 14 := by decide

theorem witness_ResetLineLoadsResetValues :
    ({ busy with moves := [.rst true] }.moves = [.rst true] ∧ ((true = true) ∨ busy.rst = true)) ∧
    ({ busy with rst := true, moves := [.rst false] }.moves = [.rst false] ∧
      ((false = true) ∨ ({ busy with rst := true, moves := [.rst false] } : State).rst = true)) := by decide

theorem witness_NothingHappensUnderReset :
    let s : State := { State.reset with rst := true }
    s.rst = true ∧ s.moves = [] ∧
      { s with moves := [.core] }.moves = [.core] ∧
      { s with moves := [.access (.write .cmd 2)] }.moves = [.access (.write .cmd 2)] := by decide

theorem witness_IdleOpen :
    State.reset.regs.fsm = .idle ∧ State.reset.regs.dvalid = false ∧
      (55 : BitVec 7).toNat < 56 ∧ 56 ≤ (56 : BitVec 7).toNat ∧ (63 : BitVec 7).toNat ≤ 63 ∧
      64 < (65 : BitVec 7).toNat ∧ 64 < (127 : BitVec 7).toNat := by decide

/-- The clauses of FINAL's block, byte by byte, at their edges. -/
theorem witness_FinalBytes :
    (54 : Fin 64).val < (55 : BitVec 7).toNat ∧ (55 : Fin 64).val = (55 : BitVec 7).toNat ∧
      ((0 : BitVec 7).toNat < (55 : Fin 64).val ∧ (55 : Fin 64).val < 56) ∧ 56 ≤ (56 : Fin 64).val ∧
      (62 : Fin 64).val < (63 : BitVec 7).toNat ∧ (63 : Fin 64).val = (63 : BitVec 7).toNat ∧
      (56 : BitVec 7).toNat < (63 : Fin 64).val := by decide

theorem witness_WriteCmdPerformsCommand :
    decodeCommand 0 = .ok .nop ∧ decodeCommand 1 = .ok .init ∧ decodeCommand 2 = .ok .block ∧
      decodeCommand 0x00004003 = .ok (.final 64) ∧ (64 : BitVec 7).toNat ≤ 64 ∧
      finished.regs.fsm = .idle ∧ State.reset.regs.dvalid = false := by decide

theorem witness_FirstErrorIsKept : State.reset.regs.cerr = false ∧ failed.regs.cerr = true := by decide

theorem witness_IllegalCommandRefused : legalCommand 0x0000000F = false ∧ legalCommand 0x00008003 = false := by
  decide

theorem witness_BusyRefusesWrites : busy.regs.fsm ≠ .idle ∧ (accum .doneFinal).regs.fsm ≠ .idle ∧
    Instr.wrBlk 15 7 = .wrBlk 15 7 := by decide

theorem witness_FinalizedCoreRefusesCompression :
    finished.regs.fsm = .idle ∧ finished.regs.dvalid = true := by decide

theorem witness_ErrExactlyOnBadAccess :
    (0b0111#4 ≠ 0b1111) ∧ ((0x42#7).extractLsb' 0 2 ≠ 0b00) ∧
    (0b1111#4 = 0b1111 ∧ (0x7C#7).extractLsb' 0 2 = 0b00) := by decide

theorem witness_BlockWordWriteSetsFourBytes :
    State.reset.regs.fsm = .idle ∧ (63 : Fin 64).val / 4 = (15 : Fin 16).val ∧
      (59 : Fin 64).val / 4 ≠ (15 : Fin 16).val := by decide

theorem witness_UnstoredAccessesChangeNothing : Instr.rdReserved 7 = .rdReserved 7 ∧
    Instr.wrDigest 3 9 = .wrDigest 3 9 := by decide

theorem witness_WriteThenReadReturnsValue :
    State.reset.regs.fsm = .idle ∧
    exec (.wrBlk 15 7) State.reset = .next (withRegs fun r => { r with blk := r.blk.set 15 7 }) ∧
    exec (.rdBlk 15) (withRegs fun r => { r with blk := r.blk.set 15 7 }) =
      .next { (withRegs fun r => { r with blk := r.blk.set 15 7 }) with reply := ⟨7, false⟩ } :=
  ⟨rfl, rfl, rfl⟩

theorem witness_MixFunctionsBitwise : 0 < 32 ∧ 31 < 32 := by decide

theorem witness_RoundStepUpdatesTuple : (v13 0).fsm = .round ∧ (v13 63).fsm = .round ∧
    (v13 63).ri.toNat = 63 := by decide

theorem witness_AccumulateStepContinues :
    (accum .doneBlock).regs.fsm = .accum ∧ (accum .doneBlock).regs.cont = .doneBlock ∧
      (accum .doneFinal).regs.cont = .doneFinal ∧ (accum .nextLenOnly).regs.cont = .nextLenOnly ∧
      (accum .next80Len).regs.cont = .next80Len ∧ (0 : Fin 64).val = 0 ∧
      (0 < (55 : Fin 64).val ∧ (55 : Fin 64).val < 56) ∧ 56 ≤ (63 : Fin 64).val := by decide

theorem witness_CoreStepFrame :
    State.reset.regs.fsm = .idle ∧ busy.regs.fsm = .round ∧ (accum .doneBlock).regs.fsm ≠ .idle := by decide

theorem witness_RoundStepsReachAccumulate :
    busy.moves = [] ∧ busy.rst = false ∧ busy.regs.fsm = .round ∧ 64 = 64 - busy.regs.ri.toNat ∧
      0 < 64 - busy.regs.ri.toNat ∧ (withRegs fun _ => v13 63).regs.fsm = .round ∧
      1 = 64 - (withRegs fun _ => v13 63).regs.ri.toNat := by decide

theorem witness_FinalTakes65Or130CoreSteps :
    (55 : BitVec 7).toNat ≤ 55 ∧ ¬ (56 : BitVec 7).toNat ≤ 55 ∧ (64 : BitVec 7).toNat ≤ 64 ∧ 129 < 130 := by
  decide

theorem witness_PollEndsAtIdle : { busy with moves := [.poll] }.rst = false ∧
    { busy with moves := [.poll] }.moves = [.poll] := by decide

/-- The second clause, with POLL just gone from the list. -/
theorem witness_PollEndsAtIdle_gone :
    let s := withMoves [.poll]
    s.rst = false ∧ s.moves = [.poll] ∧
      run 1 s = .next { State.reset with log := [⟨.read .status, ⟨0, false⟩⟩] } := ⟨rfl, rfl, rfl⟩

theorem witness_BlockAbsorbsSixtyFourBytes :
    State.reset.Ready ∧ State.reset.moves = [] ∧ Absorbed [] State.reset.regs ∧
      (List.replicate 64 (0 : Byte)).length = 64 ∧ Holds (List.replicate 64 0) State.reset.regs :=
  ⟨⟨rfl, rfl, rfl⟩, rfl, ⟨rfl, rfl⟩, rfl, by unfold Holds; decide⟩

theorem witness_FinalYieldsMd5OfMessage :
    abcLoaded.Ready ∧ abcLoaded.moves = [] ∧ Absorbed [] abcLoaded.regs ∧
      Holds [0x61, 0x62, 0x63] abcLoaded.regs ∧ Declares 3 abcLoaded.regs :=
  ⟨⟨rfl, rfl, rfl⟩, rfl, ⟨rfl, rfl⟩, by unfold Holds; decide, by unfold Declares; decide⟩

/-- The same at a full last block. -/
theorem witness_FinalYieldsMd5OfMessage_full :
    let s := withRegs fun r => { r with len := 64 }
    s.Ready ∧ s.moves = [] ∧ Absorbed [] s.regs ∧ (List.replicate 64 (0 : Byte)).length ≤ 64 ∧
      Holds (List.replicate 64 0) s.regs ∧ Declares 64 s.regs :=
  ⟨⟨rfl, rfl, rfl⟩, rfl, ⟨rfl, rfl⟩, by decide, by unfold Holds; decide, by unfold Declares; decide⟩

/-- A finished core whose record holds the FINAL that finished it, and a readout cut off before DIGEST3. -/
theorem witness_ReadoutOfFinishedCoreIsDigest :
    let s : State :=
      { finished with
        moves := .access (.read .status) :: rddigMoves
        log := [⟨.read (.digest 0), ⟨0x67452301, false⟩⟩, ⟨.read .status, ⟨0x00010002, false⟩⟩,
          ⟨.write .cmd 3, ⟨0, false⟩⟩] }
    s.rst = false ∧ s.regs.dvalid = true ∧ s.regs.fsm = .idle ∧ runResult s = none ∧
      s.moves = .access (.read .status) :: rddigMoves := ⟨rfl, rfl, rfl, by decide, rfl⟩

theorem witness_StepRunsDecodedAccess :
    let s := withMoves [.access (.write (.blk 15) 7)]
    s.rst = false ∧ s.moves = [.access (.write (.blk 15) 7)] ∧
      exec (decodeAccess (.write (.blk 15) 7)) { s with moves := [] } =
        .next (withRegs fun r => { r with blk := r.blk.set 15 7 }) := ⟨rfl, rfl, rfl⟩

theorem witness_StepRunsDecodedCommand :
    let s := withMoves [.access (.write .cmd 2)]
    s.rst = false ∧ s.moves = [.access (.write .cmd 2)] ∧ decodeAccess (.write .cmd 2) = .wrCmd 2 ∧
      decodeCommand 2 = .ok .block ∧ exec Command.block.toInstr { s with moves := [] } = .next busy :=
  ⟨rfl, rfl, by decide, by decide, rfl⟩

/-- The invariant holds of a busy core too. -/
theorem witness_EveryStepKeepsInvariant : busy.Inv ∧ step busy = .next (coreTurn busy) :=
  ⟨⟨⟨fun h => absurd rfl h, by decide, by decide, by decide⟩, by decide⟩, rfl⟩

theorem witness_DigestWrittenInThreeWays :
    (accum .doneBlock).accumulates ∧ (withMoves [.access (.write .cmd 1)]).acceptsInit ∧
      (withMoves [.rst true]).resets :=
  ⟨⟨rfl, rfl, .inl rfl⟩, ⟨rfl, rfl, _, _, 1, rfl, by decide, by decide⟩, ⟨true, [], rfl, .inl rfl⟩⟩

theorem witness_ErrorRecordClearedOnlyByInitOrReset :
    failed.regs.cerr = true ∧ step failed = .next (coreTurn failed) := ⟨rfl, rfl⟩

theorem witness_FinishedDigestHeld :
    finished.Inv ∧ finished.regs.dvalid = true ∧ step finished = .next (coreTurn finished) :=
  ⟨⟨⟨fun _ => rfl, by decide, by decide, by decide⟩, by decide⟩, rfl, rfl⟩

theorem witness_BusyCoreUnreachableByHost :
    busy.regs.busy = true ∧ step busy = .next (coreTurn busy) := ⟨rfl, rfl⟩

theorem witness_CoreTurnCommutesWithNeutralAccess :
    Instr.passive .rdStatus = true ∧ (busy.regs.busy = true ∧ (coreTurn busy).regs.busy = true) ∧
      exec (.wrBlk 0 5) busy = .next (withRegs fun r => r.acceptBlock.recordError .busy) ∧
      exec (.wrBlk 0 5) (coreTurn busy) =
        .next { coreTurn busy with regs := (coreTurn busy).regs.recordError .busy } :=
  ⟨rfl, ⟨rfl, by decide⟩, rfl, rfl⟩

theorem witness_ScheduleDoesNotChangeOutcome :
    let ms := [Move.core, .access (.read .status), .hold, .core]
    let s := { busy with moves := ms }
    s.rst = false ∧ s.moves = ms ∧ (∀ m ∈ ms, m.neutral = true) := ⟨rfl, rfl, by decide⟩

theorem witness_CoresShareNoState :
    (1 : Fin 2) ≠ 0 ∧ windowOffset 0 (Config.base 0) ≠ none ∧
      ∀ j : Fin 1, windowOffset j (Config.base 0 + 128) = none := by
  refine ⟨by decide, by simp [windowOffset], fun j => ?_⟩
  simp [windowOffset]

/-- R64: of two writes presented to one core before a step, the first takes effect first. -/
theorem test_present_in_issue_order :
    let p := (Platform.reset 1).present true 0xF (Config.base 0 + (8#7).toNat) 5
    (p.present true 0xF (Config.base 0 + (0#7).toNat) 2).cores[0].moves =
      [.access (.write .lenLo 5), .access (.write .cmd 2)] := by
  have h (off : BitVec 7) := (windowOffset_eq_some_iff (0 : Fin 1) (Config.base 0 + off.toNat) off).2 rfl
  simp only [present_eq (h _)]
  rfl

/-- R184: the start by reset is rst asserted and released, and then LEN. -/
theorem test_digest_by_reset :
    (digestMoves .reset true []).take 3 = [.rst true, .rst false, .access (.ofValue 0xF88 0)] := by decide

end Sys2Proof.Tests
end

section
/-! PROOFS. The statements of 00_scope.md: the window at BASE, the rotation, and the step on an access. -/

open Sys2Proof Sys2Proof.Machine

namespace Sys2Proof.Proofs

/-! ## The window -/

/-- An address is selected at no offset exactly if it is not BASE plus an offset (R50). -/
theorem windowOffset_eq_none_iff (k address : Nat) :
    windowOffset k address = none ↔ ∀ off : BitVec 7, address ≠ Config.base k + off.toNat := by
  rw [Option.eq_none_iff_forall_ne_some]
  exact forall_congr' fun off => not_congr (windowOffset_eq_some_iff k address off)

theorem base_mod_window (k : Nat) : Config.base k % 128 = 0 := Nat.mul_mod_right ..

/-- Settles O7: reads and writes take their offset from `windowOffset`, which answers exactly at BASE plus
an offset. -/
theorem windowIsBasePlusOffset : Obligations.WindowIsBasePlusOffset := by
  unfold Obligations.WindowIsBasePlusOffset
  intro k address
  refine ⟨fun off haddr => ?_, fun houtside => ?_, base_mod_window k⟩
  · have hoff := (windowOffset_eq_some_iff k address off).2 haddr
    simp [memRead, memWrite, hoff]
  · have hnone := (windowOffset_eq_none_iff k address).2 houtside
    simp [memRead, memWrite, hnone]

/-! ## Rotation -/

/-- On the amounts R8 allows, rol32 is the library's rotation. -/
theorem rol32_eq_rotateLeft (v : Word) {s : Nat} (hs : s < 32) : rol32 v s = v.rotateLeft s := by
  rw [rol32, BitVec.rotateLeft_def, Nat.mod_eq_of_lt hs]

/-- Settles O8: the low s bits of the rotation come from the top of the word, where k + 32 - s is below 32;
the others come from s places below. -/
theorem rolIsCircular : Obligations.RolIsCircular := by
  unfold Obligations.RolIsCircular
  intro v s k _ hs hk
  rw [rol32_eq_rotateLeft v (by omega), BitVec.getLsbD_rotateLeft_of_le (by omega)]
  by_cases hlow : k < s
  · have hindex : (k + 32 - s) % 32 = 32 - s + k := by omega
    simp [hlow, hindex]
  · have hindex : (k + 32 - s) % 32 = k - s := by omega
    simp [hlow, hk, hindex]

/-! ## The step on an access -/

/-- Settles O49: the step takes the access off the list, and out of reset the access is its row's meaning,
noted in the host's record. -/
theorem stepRunsDecodedAccess : Obligations.StepRunsDecodedAccess := by
  unfold Obligations.StepRunsDecodedAccess
  intro s t a ms hrst hmoves hexec
  calc step s = hostAccess a { s with moves := ms } := step_cons hmoves
    _ = .next (noteExchange a t) := hostAccess_of_exec (s := { s with moves := ms }) hrst hexec

end Sys2Proof.Proofs
end

section
/-! PROOFS. The statements of 10_state.md: the values after reset, the STATUS word, the invariant, and the
ways H is written. -/

open Sys2Proof Sys2Proof.Machine

namespace Sys2Proof.Proofs

/-! ## Starting a compression -/

/-- FINAL changes the block and CONT, and starts a compression (R142). -/
theorem acceptFinal_eq_startCompress (f : BitVec 7) (r : Regs) :
    ∃ blk cont, r.acceptFinal f = { r with blk := blk, cont := cont }.startCompress := by
  unfold Regs.acceptFinal
  split
  · exact ⟨_, _, rfl⟩
  · split
    · exact ⟨_, _, rfl⟩
    · exact ⟨r.blk, _, rfl⟩

/-! ## Reset -/

/-- Settles O12: each register is written out in the reset value. -/
theorem resetValues : Obligations.ResetValues := by
  unfold Obligations.ResetValues
  have hblk : ∀ j : Fin 16, State.reset.regs.blk[j] = 0 := by decide
  exact ⟨rfl, hblk, rfl, rfl, rfl, rfl, rfl, rfl, rfl, rfl, rfl, rfl, rfl, rfl⟩

/-! ## The invariant -/

/-- The registers after reset are those of an idle core without digest or error. -/
theorem reset_inv : Regs.reset.Inv where
  indexZero _ := rfl
  digestFinal := by decide
  idleDone _ := .inl rfl
  errorRecord := by decide

/-- Settles O52: rst is released, and its registers are the reset values themselves. -/
theorem resetMeetsInvariant : Obligations.ResetMeetsInvariant := by
  unfold Obligations.ResetMeetsInvariant
  exact ⟨reset_inv, fun _ => rfl⟩

/-- The start of a compression meets the invariant whatever RI and CONT were, if no digest is final. -/
theorem startCompress_inv {r : Regs} (hd : r.dvalid = false) (he : r.cerr = true ↔ r.ecode ≠ .none) :
    r.startCompress.Inv where
  indexZero hf := absurd rfl hf
  digestFinal := by simp [hd]
  idleDone hf := by simp at hf
  errorRecord := he

/-- An accepted INIT leaves RI 0, CONT at DONE_BLOCK, and neither digest nor error (R171). -/
theorem acceptInit_inv (r : Regs) : r.acceptInit.Inv where
  indexZero _ := rfl
  digestFinal := by simp
  idleDone _ := .inl rfl
  errorRecord := by simp

theorem recordError_inv {r : Regs} (h : r.Inv) {e : ErrorCode} (he : e ≠ .none) :
    (r.recordError e).Inv where
  indexZero := h.indexZero
  digestFinal := h.digestFinal
  idleDone := h.idleDone
  errorRecord := by
    cases hc : r.cerr with
    | true => simpa [hc] using h.errorRecord.1 hc
    | false => simpa [hc] using he

/-- Every instruction keeps the invariant of the registers. -/
theorem regChange_inv {i : Instr} {r r' : Regs} (hc : RegChange i r r') (h : r.Inv) : r'.Inv := by
  cases hc with
  | same => exact h
  | error e he => exact recordError_inv h he
  | lenLo | lenHi | blk => exact ⟨h.indexZero, h.digestFinal, h.idleDone, h.errorRecord⟩
  | init => exact acceptInit_inv r
  | block _ _ hd => exact startCompress_inv hd h.errorRecord
  | final f _ _ hd =>
    obtain ⟨blk, cont, hf⟩ := acceptFinal_eq_startCompress f r
    rw [hf]
    exact startCompress_inv hd h.errorRecord

/-- A busy core has no final digest (R29). -/
theorem dvalid_eq_false_of_busy {r : Regs} (h : r.Inv) (hf : r.fsm ≠ .idle) : r.dvalid = false :=
  Bool.eq_false_iff.2 fun hd => hf (h.digestFinal.1 hd).1

/-- RI leaves the round steps at 63, from which it wraps to 0 (R26, R109). -/
theorem roundStep_inv {r : Regs} (h : r.Inv) (hf : r.fsm = .round) : r.roundStep.Inv := by
  have hd : r.dvalid = false := dvalid_eq_false_of_busy h (by simp [hf])
  have hbusy : r.roundStep.fsm ≠ .idle := by
    rw [Regs.roundStep_fsm, hf]
    split <;> decide
  refine ⟨fun hround => ?_, ?_, fun hidle => absurd hidle hbusy, h.errorRecord⟩
  · have hlast : r.ri = 63 := by simpa [hf] using hround
    rw [Regs.roundStep_ri, hlast]
    rfl
  · rw [Regs.roundStep_dvalid, hd]
    simp only [hbusy, Bool.false_eq_true, false_and]

/-- The accumulate step ends the compression, with a final digest exactly where CONT says DONE_FINAL, or
starts the second one (R110, R111). -/
theorem accumulate_inv {r : Regs} (h : r.Inv) (hf : r.fsm = .accum) : r.accumulate.Inv := by
  have hd : r.dvalid = false := dvalid_eq_false_of_busy h (by simp [hf])
  have hri : r.ri = 0 := h.indexZero (by simp [hf])
  cases hc : r.cont with
  | doneBlock =>
    rw [accumulate_doneBlock hc]
    exact ⟨fun _ => hri, by simp [hd, hc], fun _ => .inl hc, h.errorRecord⟩
  | doneFinal =>
    rw [accumulate_doneFinal hc]
    exact ⟨fun _ => hri, by simp [hc], fun _ => .inr hc, h.errorRecord⟩
  | nextLenOnly =>
    rw [accumulate_nextLenOnly hc]
    exact startCompress_inv hd h.errorRecord
  | next80Len =>
    rw [accumulate_next80Len hc]
    exact startCompress_inv hd h.errorRecord

theorem coreStep_inv {r : Regs} (h : r.Inv) : r.coreStep.Inv := by
  cases hf : r.fsm with
  | idle => rwa [coreStep_idle hf]
  | round => rw [coreStep_round hf]; exact roundStep_inv h hf
  | accum => rw [coreStep_accum hf]; exact accumulate_inv h hf

/-- Settles O53, by the ways a step can change the registers and rst. -/
theorem everyStepKeepsInvariant : Obligations.EveryStepKeepsInvariant := by
  unfold Obligations.EveryStepKeepsInvariant
  rintro s t ⟨hregs, hreset⟩ hstep
  cases stepChange_of_step hstep with
  | core _ hrst ht =>
    cases h0 : s.rst with
    | true =>
      simp only [h0, if_true] at ht
      exact ⟨ht ▸ hregs, fun _ => ht.trans (hreset h0)⟩
    | false =>
      simp only [h0, Bool.false_eq_true, if_false] at ht
      exact ⟨ht ▸ coreStep_inv hregs, fun h1 => by simp [hrst, h0] at h1⟩
  | rst level _ _ hrst ht =>
    split at ht
    · exact ⟨ht ▸ reset_inv, fun _ => ht⟩
    · next hlow => exact ⟨ht ▸ hregs, fun h1 => absurd (by simp [← hrst, h1]) hlow⟩
  | access a _ _ h0 hrst hc => exact ⟨regChange_inv hc hregs, fun h1 => by simp [hrst, h0] at h1⟩
  | same hrst ht => exact ⟨ht ▸ hregs, fun h1 => ht.trans (hreset (hrst ▸ h1))⟩

/-! ## The digest state -/

/-- The decoder of accesses answers bus rows only: a command is the word of a write to CMD (R80). -/
theorem decodeAccess_isCommand (a : Access) : (decodeAccess a).isCommand = false := by
  unfold decodeAccess
  split
  · rfl
  · split
    · rfl
    · split
      · cases Reg.at a.addr <;> rfl
      · cases Reg.at a.addr <;> rfl

/-- Of all instructions only an accepted INIT writes H (R21). -/
theorem regChange_h {i : Instr} {r r' : Regs} (hc : RegChange i r r') :
    r'.h = r.h ∨ ((i = .init ∨ ∃ w, i = .wrCmd w ∧ decodeCommand w = .ok .init) ∧ r.busy = false ∧
      r'.h = iv) := by
  cases hc with
  | same | error | lenLo | lenHi | blk | block => exact .inl rfl
  | init hi hb => exact .inr ⟨hi, hb, rfl⟩
  | final f =>
    obtain ⟨blk, cont, hf⟩ := acceptFinal_eq_startCompress f r
    rw [hf]
    exact .inl rfl

/-- Of the core's steps only the accumulate step writes H: it adds the working tuple (R110). -/
theorem coreStep_h (r : Regs) :
    r.coreStep.h = r.h ∨
      (r.fsm = .accum ∧ r.coreStep.h = #v[r.h[0] + r.ra, r.h[1] + r.rb, r.h[2] + r.rc, r.h[3] + r.rd]) := by
  cases hf : r.fsm with
  | idle => rw [coreStep_idle hf]; exact .inl rfl
  | round => rw [coreStep_round hf]; exact .inl rfl
  | accum => rw [coreStep_accum hf]; exact .inr ⟨rfl, (accumulate_frame r).1⟩

/-- Settles O54, by the ways a step can change the registers. -/
theorem digestWrittenInThreeWays : Obligations.DigestWrittenInThreeWays := by
  unfold Obligations.DigestWrittenInThreeWays
  intro s t hstep
  cases stepChange_of_step hstep with
  | core hm _ ht =>
    cases h0 : s.rst with
    | true => exact .inl (by simp [ht, h0])
    | false =>
      simp only [h0, Bool.false_eq_true, if_false] at ht
      rw [ht]
      exact (coreStep_h s.regs).imp id fun ⟨hf, hsum⟩ => .inl ⟨⟨h0, hf, hm⟩, hsum⟩
  | rst level ms hm _ ht =>
    split at ht
    · next hhigh => exact .inr (.inr ⟨.inr ⟨level, ms, hm, by simpa using hhigh⟩, by rw [ht]; rfl⟩)
    · exact .inl (congrArg Regs.h ht)
  | access a ms hm h0 _ hc =>
    obtain hkept | ⟨hinit | ⟨w, hw, hcmd⟩, hidle, hiv⟩ := regChange_h hc
    · exact .inl hkept
    · have hbus := decodeAccess_isCommand a
      simp [hinit, Instr.isCommand] at hbus
    · exact .inr (.inr ⟨.inl ⟨h0, hidle, a, ms, w, hm, hw, hcmd⟩, hiv⟩)
  | same _ ht => exact .inl (congrArg Regs.h ht)

/-! ## STATUS -/

/-- A field above the low w bits is found in what stands above them. -/
theorem extractLsb'_append_of_le {v w n start : Nat} {x : BitVec v} {y : BitVec w} {z : BitVec n}
    (hle : w ≤ start) (hx : x.extractLsb' (start - w) n = z) : (x ++ y).extractLsb' start n = z :=
  (BitVec.extractLsb'_append_eq_of_le hle).trans hx

/-- The four low bits of STATUS: BUSY, DVALID, CERR and a reserved 0 (R33). -/
theorem status_lowBits (r : Regs) :
    r.status.getLsbD 0 = r.busy ∧ r.status.getLsbD 1 = r.dvalid ∧ r.status.getLsbD 2 = r.cerr ∧
      r.status.getLsbD 3 = false := by
  simp only [status_eq_fields, BitVec.getLsbD_append]
  simp

theorem status_ecode (r : Regs) : r.status.extractLsb' 4 4 = r.ecode.bits := by
  rw [status_eq_fields]
  iterate 4 refine extractLsb'_append_of_le (by decide) ?_
  exact BitVec.extractLsb'_append_eq_right

theorem status_ri (r : Regs) : r.status.extractLsb' 8 6 = r.ri := by
  rw [status_eq_fields]
  iterate 5 refine extractLsb'_append_of_le (by decide) ?_
  exact BitVec.extractLsb'_append_eq_right

theorem status_fsm (r : Regs) : r.status.extractLsb' 14 2 = r.fsm.bits := by
  rw [status_eq_fields]
  iterate 6 refine extractLsb'_append_of_le (by decide) ?_
  exact BitVec.extractLsb'_append_eq_right

theorem status_cont (r : Regs) : r.status.extractLsb' 16 2 = r.cont.bits := by
  rw [status_eq_fields]
  iterate 7 refine extractLsb'_append_of_le (by decide) ?_
  exact BitVec.extractLsb'_append_eq_right

theorem status_reserved (r : Regs) : r.status.extractLsb' 18 14 = 0 := by
  rw [status_eq_fields]
  iterate 8 refine extractLsb'_append_of_le (by decide) ?_
  rfl

/-- Settles O32: the read answers STATUS, which is its fields side by side. -/
theorem statusReadAnswersFields : Obligations.StatusReadAnswersFields := by
  unfold Obligations.StatusReadAnswersFields
  intro s
  obtain ⟨hbusy, hdvalid, hcerr, hres⟩ := status_lowBits s.regs
  refine ⟨s.regs.status, rfl, ?_, hdvalid, hcerr, hres, ?_, status_ri _, ?_, ?_, status_reserved _,
    hbusy.symm, hdvalid.symm⟩
  · rw [hbusy, busy_eq_true_iff]
  · rw [status_ecode]
    cases s.regs.ecode <;> rfl
  · rw [status_fsm]
    cases s.regs.fsm <;> rfl
  · rw [status_cont]
    cases s.regs.cont <;> rfl

end Sys2Proof.Proofs
end

section
/-! PROOFS. The statements of 20_memory.md: access values, the byte order of the block, the halves of LEN,
and what the host reaches of a busy core. -/

open Sys2Proof Sys2Proof.Machine

namespace Sys2Proof.Proofs

/-! ## Access values -/

/-- Settles O2, each value decoded on its own. -/
theorem accessWordsDecodeAsTabled : Obligations.AccessWordsDecodeAsTabled := by
  unfold Obligations.AccessWordsDecodeAsTabled
  decide

/-! ## The byte view of the block -/

/-- The word of four bytes, as R56 writes it: each byte shifted to its place. -/
theorem packWord_eq_or_shiftLeft (b0 b1 b2 b3 : Byte) :
    packWord b0 b1 b2 b3 =
      b0.setWidth 32 ||| b1.setWidth 32 <<< 8 ||| b2.setWidth 32 <<< 16 ||| b3.setWidth 32 <<< 24 := by
  calc packWord b0 b1 b2 b3
      = (b3 ++ b2 ++ b1 ++ b0).setWidth 32 := (BitVec.setWidth_eq _).symm
    _ = b3.setWidth 32 <<< 24 ||| b2.setWidth 32 <<< 16 ||| b1.setWidth 32 <<< 8 ||| b0.setWidth 32 :=
        BitVec.setWidth_append_append_append_eq_shiftLeft_setWidth_or
    _ = _ := by
        rw [BitVec.or_comm, BitVec.or_comm (_ ||| _) (b1.setWidth 32 <<< 8),
          BitVec.or_comm (b3.setWidth 32 <<< 24), ← BitVec.or_assoc, ← BitVec.or_assoc]

/-- Settles O9: the loaded words are those of the block whose bytes are m. -/
theorem blockBytesLittleEndian : Obligations.BlockBytesLittleEndian := by
  unfold Obligations.BlockBytesLittleEndian
  intro m blk hload n
  have hblk : blk = blkOfBytes m := by
    ext1 j hj
    rw [blkOfBytes_getElem m j hj, packWord_eq_or_shiftLeft]
    exact hload ⟨j, hj⟩
  rw [hblk, blkByte_blkOfBytes]

/-! ## The halves of LEN -/

/-- LEN as R60 joins it: LEN_HI shifted above LEN_LO. -/
theorem lenOf_eq_or_shiftLeft (hi lo : Word) :
    lenOf hi lo = hi.setWidth 64 <<< 32 ||| lo.setWidth 64 := by
  rw [lenOf, ← BitVec.setWidth_eq (hi ++ lo), BitVec.setWidth_append_eq_shiftLeft_setWidth_or]

theorem lenOf_and_lenOf (hi lo hi' lo' : Word) :
    lenOf hi lo &&& lenOf hi' lo' = lenOf (hi &&& hi') (lo &&& lo') := BitVec.and_append

/-- The mask of the high half keeps LEN_HI. -/
theorem and_highMask (len : BitVec 64) :
    len &&& 0xFFFFFFFF00000000#64 = (lenHi len).setWidth 64 <<< 32 := by
  have hmask : 0xFFFFFFFF00000000#64 = lenOf (BitVec.allOnes 32) 0#32 := by decide
  calc len &&& 0xFFFFFFFF00000000#64
      = lenOf (lenHi len) (lenLo len) &&& lenOf (BitVec.allOnes 32) 0#32 := by
        rw [lenOf_lenHi_lenLo, hmask]
    _ = lenOf (lenHi len) 0#32 := by
        rw [lenOf_and_lenOf, BitVec.and_allOnes, BitVec.and_zero]
    _ = (lenHi len).setWidth 64 <<< 32 := by simp [lenOf_eq_or_shiftLeft]

/-- The mask of the low half keeps LEN_LO. -/
theorem and_lowMask (len : BitVec 64) : len &&& 0x00000000FFFFFFFF#64 = (lenLo len).setWidth 64 := by
  have hmask : 0x00000000FFFFFFFF#64 = lenOf 0#32 (BitVec.allOnes 32) := by decide
  calc len &&& 0x00000000FFFFFFFF#64
      = lenOf (lenHi len) (lenLo len) &&& lenOf 0#32 (BitVec.allOnes 32) := by
        rw [lenOf_lenHi_lenLo, hmask]
    _ = lenOf 0#32 (lenLo len) := by
        rw [lenOf_and_lenOf, BitVec.and_allOnes, BitVec.and_zero]
    _ = (lenLo len).setWidth 64 := by simp [lenOf_eq_or_shiftLeft]

/-- A write of LEN_LO as mask and or (R173). -/
theorem setLenLo_eq_mask (w : Word) (r : Regs) :
    r.setLenLo w = { r with len := (r.len &&& 0xFFFFFFFF00000000#64) ||| w.setWidth 64 } := by
  rw [and_highMask, ← lenOf_eq_or_shiftLeft, Regs.setLenLo]

/-- A write of LEN_HI as mask and or (R174). -/
theorem setLenHi_eq_mask (w : Word) (r : Regs) :
    r.setLenHi w = { r with len := (r.len &&& 0x00000000FFFFFFFF#64) ||| (w.setWidth 64 <<< 32) } := by
  rw [and_lowMask, BitVec.or_comm, ← lenOf_eq_or_shiftLeft, Regs.setLenHi]

/-- Settles O29: an idle core performs the write. -/
theorem lengthWritesReplaceOneHalf : Obligations.LengthWritesReplaceOneHalf := by
  unfold Obligations.LengthWritesReplaceOneHalf
  intro s w hidle
  have hbusy : s.regs.busy = false := (busy_eq_false_iff _).2 hidle
  rw [← setLenLo_eq_mask, ← setLenHi_eq_mask]
  exact ⟨writeUnlessBusy_idle hbusy _, writeUnlessBusy_idle hbusy _⟩

/-- A write to LEN or BLK that meets an idle core, then a read: the read answers from the registers just
written (R62, R64). -/
theorem reply_of_write_then_read {f : Regs → Regs} {v : Regs → Word} {s t u : State}
    (hidle : s.regs.busy = false) (hwr : writeUnlessBusy f s = .next t)
    (hrd : readValue (v t.regs) t = .next u) : u.reply = ⟨v (f s.regs), false⟩ := by
  rw [writeUnlessBusy_idle hidle] at hwr
  cases hwr
  cases hrd
  rfl

/-- Settles O34: each read answers the half or the word that the write has set. -/
theorem writeThenReadReturnsValue : Obligations.WriteThenReadReturnsValue := by
  unfold Obligations.WriteThenReadReturnsValue
  intro s t u j v wr rd hidle hpair hwr hrd
  have hbusy : s.regs.busy = false := (busy_eq_false_iff _).2 hidle
  obtain ⟨rfl, rfl⟩ | ⟨rfl, rfl⟩ | ⟨rfl, rfl⟩ := hpair
  · have hreply := reply_of_write_then_read (v := fun r => lenLo r.len) hbusy hwr hrd
    simpa using hreply
  · have hreply := reply_of_write_then_read (v := fun r => lenHi r.len) hbusy hwr hrd
    simpa using hreply
  · have hreply := reply_of_write_then_read (v := fun r => r.blk[j]) hbusy hwr hrd
    simpa using hreply

/-! ## A busy core -/

/-- An instruction that finds the core busy leaves the registers or enters the error record: each way that
writes LEN, the block, H or the sequencing state needs an idle core (R203, R208). -/
theorem regChange_of_busy {i : Instr} {r r' : Regs} (hb : r.busy = true) (hc : RegChange i r r') :
    r' = r ∨ ∃ e, r' = r.recordError e := by
  cases hc with
  | same => exact .inl rfl
  | error e => exact .inr ⟨e, rfl⟩
  | lenLo _ _ hidle | lenHi _ _ hidle | blk _ _ _ hidle | init _ hidle | block _ hidle | final _ _ hidle =>
    simp [hb] at hidle

/-- No step of the core writes LEN (R24, R60). -/
theorem coreStep_len (r : Regs) : r.coreStep.len = r.len := by
  cases hf : r.fsm with
  | idle => rw [coreStep_idle hf]
  | round => rw [coreStep_round hf, Regs.roundStep_len]
  | accum => rw [coreStep_accum hf]; exact (accumulate_frame r).2.1

/-- Settles O57, by the ways a step can change the registers. -/
theorem busyCoreUnreachableByHost : Obligations.BusyCoreUnreachableByHost := by
  unfold Obligations.BusyCoreUnreachableByHost
  intro s t hbusy hstep
  cases stepChange_of_step hstep with
  | core hm _ ht =>
    cases h0 : s.rst with
    | true =>
      simp only [h0, if_true] at ht
      exact .inr ⟨congrArg Regs.len ht, .inl ht⟩
    | false =>
      simp only [h0, Bool.false_eq_true, if_false] at ht
      exact .inr ⟨by rw [ht, coreStep_len], .inr (.inr ⟨rfl, hm, ht⟩)⟩
  | rst level ms hm _ ht =>
    split at ht
    · next hhigh => exact .inl ⟨level, ms, hm, by simpa using hhigh⟩
    · exact .inr ⟨congrArg Regs.len ht, .inl ht⟩
  | access a ms hm h0 _ hc =>
    obtain hkept | ⟨e, herror⟩ := regChange_of_busy hbusy hc
    · exact .inr ⟨congrArg Regs.len hkept, .inl hkept⟩
    · exact .inr ⟨by rw [herror, Regs.recordError_len], .inr (.inl ⟨h0, ⟨a, ms, hm⟩, e, herror⟩)⟩
  | same _ ht => exact .inr ⟨congrArg Regs.len ht, .inl ht⟩

end Sys2Proof.Proofs
end

section
/-! PROOFS. The statements of 30_encoding.md: the command words and the rows of bus accesses, decoded and
encoded. -/

open Sys2Proof Sys2Proof.Machine

namespace Sys2Proof.Proofs

/-! ## Command words -/

/-- Settles O1, each word decoded on its own. -/
theorem commandWordsDecodeAsTabled : Obligations.CommandWordsDecodeAsTabled := by
  unfold Obligations.CommandWordsDecodeAsTabled
  decide

/-- The OP field of a command (R81). -/
def commandOp : Command → BitVec 4
  | .nop => 0
  | .init => 1
  | .block => 2
  | .final _ => 3

/-- The FILLED field of a command (R82), 0 where the command has no operand (R83). -/
def commandFilled : Command → BitVec 7
  | .nop | .init | .block => 0
  | .final f => f

/-- The word with the given fields and every reserved bit 0 (R80). -/
def commandWord (op : BitVec 4) (filled : BitVec 7) : Word := 0#17 ++ filled ++ 0#4 ++ op

/-- The mask of R83 covers RES1 and RES0, and no bit of FILLED or OP (R80). -/
theorem reservedMask_eq_fields :
    0xFFFF80F0#32 = BitVec.allOnes 17 ++ 0#7 ++ BitVec.allOnes 4 ++ 0#4 := by decide

theorem commandWord_op (op : BitVec 4) (filled : BitVec 7) :
    (commandWord op filled).extractLsb' 0 4 = op := BitVec.extractLsb'_append_eq_right

theorem commandWord_filled (op : BitVec 4) (filled : BitVec 7) :
    (commandWord op filled).extractLsb' 8 7 = filled := by
  iterate 2 refine extractLsb'_append_of_le (by decide) ?_
  exact BitVec.extractLsb'_append_eq_right

theorem commandWord_reserved (op : BitVec 4) (filled : BitVec 7) :
    commandWord op filled &&& 0xFFFF80F0#32 = 0 := by
  rw [commandWord, reservedMask_eq_fields]
  repeat rw [BitVec.and_append]
  rw [BitVec.and_allOnes, BitVec.and_allOnes, BitVec.and_zero, BitVec.and_zero]
  rfl

/-- The mask reads RES1 and RES0: where it finds no bit, both fields are 0. -/
theorem reservedFields_eq_zero {w : Word} (h : w &&& 0xFFFF80F0#32 = 0) :
    w.extractLsb' 15 17 = 0#17 ∧ w.extractLsb' 4 4 = 0#4 := by
  have hres1 := congrArg (BitVec.extractLsb' 15 17) h
  have hres0 := congrArg (BitVec.extractLsb' 4 4) h
  rw [BitVec.extractLsb'_and] at hres1 hres0
  exact ⟨BitVec.and_allOnes.symm.trans hres1, BitVec.and_allOnes.symm.trans hres0⟩

/-- A word without a reserved bit is its OP and its FILLED. -/
theorem eq_commandWord {w : Word} (h : w &&& 0xFFFF80F0#32 = 0) :
    w = commandWord (w.extractLsb' 0 4) (w.extractLsb' 8 7) := by
  obtain ⟨hres1, hres0⟩ := reservedFields_eq_zero h
  calc w = w.extractLsb' 0 32 := (BitVec.extractLsb'_eq_self).symm
    _ = w.extractLsb' 15 17 ++ w.extractLsb' 8 7 ++ w.extractLsb' 4 4 ++ w.extractLsb' 0 4 := by
        simp only [BitVec.extractLsb'_append_extractLsb'_eq_extractLsb']
    _ = commandWord (w.extractLsb' 0 4) (w.extractLsb' 8 7) := by rw [hres1, hres0, commandWord]

/-- The canonical words of R87 by their fields. -/
theorem encode_eq_commandWord (c : Command) : c.encode = commandWord (commandOp c) (commandFilled c) := by
  cases c with
  | nop | init | block => rfl
  | final f =>
    calc (Command.final f).encode = (0#17 ++ f ++ 0#4 ++ 3#4).setWidth 32 := by
          rw [BitVec.setWidth_append_append_append_eq_shiftLeft_setWidth_or, Command.encode, BitVec.or_comm]
          simp
      _ = commandWord 3 f := BitVec.setWidth_eq _

theorem eq_encode_iff (w : Word) (c : Command) :
    w = c.encode ↔ w &&& 0xFFFF80F0#32 = 0 ∧ w.extractLsb' 0 4 = commandOp c ∧
      w.extractLsb' 8 7 = commandFilled c := by
  rw [encode_eq_commandWord]
  constructor
  · rintro rfl
    exact ⟨commandWord_reserved .., commandWord_op .., commandWord_filled ..⟩
  · rintro ⟨hres, hop, hfilled⟩
    rw [← hop, ← hfilled]
    exact eq_commandWord hres

/-- The values of OP that name a command (R81). -/
theorem op_cases {op : BitVec 4} (h : op.toNat ≤ 3) : op = 0 ∨ op = 1 ∨ op = 2 ∨ op = 3 := by
  revert op
  decide

/-- A word that decodes to a command has that command's fields: the tests that precede each answer of the
decoder leave no other. -/
theorem fields_of_decodeCommand {w : Word} {c : Command} (h : decodeCommand w = .ok c) :
    w &&& 0xFFFF80F0#32 = 0 ∧ w.extractLsb' 0 4 = commandOp c ∧ w.extractLsb' 8 7 = commandFilled c := by
  unfold decodeCommand at h
  split at h
  · cases h
  next hle =>
  split at h
  · cases h
  next hres =>
  rw [not_not] at hres
  split at h
  · next hfinal => cases h; exact ⟨hres, hfinal, rfl⟩
  next hnotFinal =>
  split at h
  · cases h
  next hfilled =>
  rw [not_not] at hfilled
  split at h
  · next hnop => cases h; exact ⟨hres, hnop, hfilled⟩
  next hnotNop =>
  split at h
  · next hinit => cases h; exact ⟨hres, hinit, hfilled⟩
  next hnotInit =>
  cases h
  have hop : w.extractLsb' 0 4 = 2 :=
    (((op_cases (BitVec.not_lt.1 hle)).resolve_left hnotNop).resolve_left hnotInit).resolve_right hnotFinal
  exact ⟨hres, hop, hfilled⟩

/-- A command's OP is at most 3, and its FILLED is 0 unless it is FINAL (R83). -/
theorem commandFields_legal (c : Command) :
    (commandOp c).toNat ≤ 3 ∧ (commandOp c = 3 ∨ commandFilled c = 0) := by
  cases c with
  | nop | init | block => exact ⟨by decide, .inr rfl⟩
  | final f => exact ⟨le_rfl, .inl rfl⟩

/-- A word with a command's fields and no reserved bit decodes to the command. -/
theorem decodeCommand_of_fields {w : Word} {c : Command} (hres : w &&& 0xFFFF80F0#32 = 0)
    (hop : w.extractLsb' 0 4 = commandOp c) (hfilled : w.extractLsb' 8 7 = commandFilled c) :
    decodeCommand w = .ok c := by
  have hle : ¬ 3 < commandOp c := BitVec.not_lt.2 (commandFields_legal c).1
  have hclear : ¬ w &&& 0xFFFF80F0 ≠ 0 := not_not.2 hres
  rw [decodeCommand, hop, hfilled, if_neg hle, if_neg hclear]
  cases c <;> rfl

/-- Settles O3: both sides say that no reserved bit is set and that OP and FILLED are the command's. -/
theorem commandDecodesIffCanonicalWord : Obligations.CommandDecodesIffCanonicalWord := by
  unfold Obligations.CommandDecodesIffCanonicalWord
  intro c w
  rw [eq_encode_iff]
  exact ⟨fields_of_decodeCommand, fun ⟨hres, hop, hfilled⟩ => decodeCommand_of_fields hres hop hfilled⟩

/-- Settles O4: a legal word has the fields of the command that R85 names for its OP, and a word that decodes
to a command has that command's legal fields. -/
theorem commandLegalityTest : Obligations.CommandLegalityTest := by
  unfold Obligations.CommandLegalityTest
  intro w
  constructor
  · rintro ⟨hle, hres, hfilled⟩
    obtain hop | hop | hop | hop := op_cases hle <;> simp only [hop] at hfilled ⊢
    on_goal 4 => exact decodeCommand_of_fields hres hop rfl
    all_goals exact decodeCommand_of_fields hres hop (hfilled.resolve_left (by decide))
  · intro hillegal
    cases hdecode : decodeCommand w with
    | error e => exact ⟨e, rfl⟩
    | ok c =>
      obtain ⟨hres, hop, hfilled⟩ := fields_of_decodeCommand hdecode
      obtain ⟨hle, hfinal⟩ := commandFields_legal c
      rw [hop, hfilled] at hillegal
      exact absurd ⟨hle, hres, hfinal⟩ hillegal

/-! ## Rows of bus accesses -/

/-- Each register is found at its offset (R52). -/
theorem regAt_offset (r : Reg) : Reg.at r.offset = r := by
  cases r with
  | cmd | status | lenLo | lenHi => rfl
  | digest j => revert j; decide
  | reserved x => revert x; decide
  | blk j => revert j; decide

/-- Every register's offset is a multiple of 4. -/
theorem offset_aligned (r : Reg) : r.offset.extractLsb' 0 2 = 0 := by
  cases r with
  | cmd | status | lenLo | lenHi => rfl
  | digest j => revert j; decide
  | reserved x => revert x; decide
  | blk j => revert j; decide

/-- The map of R52 leaves no aligned offset out. -/
theorem offset_regAt {addr : BitVec 7} (h : addr.extractLsb' 0 2 = 0) : (Reg.at addr).offset = addr := by
  revert addr
  decide

theorem access_good_iff (a : Access) : a.good = true ↔ a.be = 0xF ∧ a.addr.extractLsb' 0 2 = 0 := by
  simp [Access.good]

theorem decodeAccess_narrow {a : Access} (h : a.be ≠ 0xF) :
    decodeAccess a = .badAccessNarrow a.we a.be a.addr a.wdata := if_pos h

theorem decodeAccess_misaligned {a : Access} (hbe : a.be = 0xF) (h : a.addr.extractLsb' 0 2 ≠ 0) :
    decodeAccess a = .badAccessMisaligned a.we a.addr a.wdata := by
  rw [decodeAccess, if_neg (not_not.2 hbe), if_pos h]

theorem decodeAccess_good {a : Access} (h : a.good = true) :
    decodeAccess a =
      if a.we then (Reg.at a.addr).writeRow a.wdata else (Reg.at a.addr).readRow := by
  obtain ⟨hbe, haddr⟩ := (access_good_iff a).1 h
  rw [decodeAccess, if_neg (not_not.2 hbe), if_neg (not_not.2 haddr)]

theorem write_good (r : Reg) (w : Word) : (Access.write r w).good = true :=
  (access_good_iff _).2 ⟨rfl, offset_aligned r⟩

theorem read_good (r : Reg) : (Access.read r).good = true := (access_good_iff _).2 ⟨rfl, offset_aligned r⟩

theorem decodeAccess_write (r : Reg) (w : Word) : decodeAccess (.write r w) = r.writeRow w := by
  calc decodeAccess (.write r w) = (Reg.at r.offset).writeRow w := decodeAccess_good (write_good r w)
    _ = r.writeRow w := by rw [regAt_offset]

theorem decodeAccess_read (r : Reg) : decodeAccess (.read r) = r.readRow := by
  calc decodeAccess (.read r) = (Reg.at r.offset).readRow := decodeAccess_good (read_good r)
    _ = r.readRow := by rw [regAt_offset]

theorem encode_writeRow (r : Reg) (w : Word) : encode (r.writeRow w) = .write r w := by
  cases r <;> rfl

theorem encode_readRow (r : Reg) : encode r.readRow = .read r := by
  cases r <;> rfl

theorem encode_toInstr (c : Command) : encode c.toInstr = .write .cmd c.encode := by
  cases c <;> rfl

theorem writeRow_wf (r : Reg) (w : Word) : (r.writeRow w).wf = true := by
  cases r <;> rfl

theorem readRow_wf (r : Reg) : r.readRow.wf = true := by
  cases r <;> rfl

/-- The kinds of rows: a command, a good write or read of a register, and the two BAD ACCESS rows
(R80, R86). -/
inductive RowKind : Instr → Prop where
  | command (c : Command) : RowKind c.toInstr
  | write (r : Reg) (w : Word) : RowKind (r.writeRow w)
  | read (r : Reg) : RowKind r.readRow
  | narrow (we : Bool) (be : BitVec 4) (addr : BitVec 7) (wdata : Word) :
      RowKind (.badAccessNarrow we be addr wdata)
  | misaligned (we : Bool) (addr : BitVec 7) (wdata : Word) : RowKind (.badAccessMisaligned we addr wdata)

theorem rowKind (i : Instr) : RowKind i := by
  cases i with
  | nop => exact .command .nop
  | init => exact .command .init
  | block => exact .command .block
  | final f => exact .command (.final f)
  | wrCmd w => exact .write .cmd w
  | rdCmd => exact .read .cmd
  | rdStatus => exact .read .status
  | wrStatus w => exact .write .status w
  | wrLenLo w => exact .write .lenLo w
  | rdLenLo => exact .read .lenLo
  | wrLenHi w => exact .write .lenHi w
  | rdLenHi => exact .read .lenHi
  | rdDigest j => exact .read (.digest j)
  | wrDigest j w => exact .write (.digest j) w
  | rdReserved x => exact .read (.reserved x)
  | wrReserved x w => exact .write (.reserved x) w
  | wrBlk j w => exact .write (.blk j) w
  | rdBlk j => exact .read (.blk j)
  | badAccessNarrow we be addr wdata => exact .narrow we be addr wdata
  | badAccessMisaligned we addr wdata => exact .misaligned we addr wdata

theorem toInstr_isCommand (c : Command) : c.toInstr.isCommand = true := by
  cases c <;> rfl

theorem writeRow_isCommand (r : Reg) (w : Word) : (r.writeRow w).isCommand = false := by
  cases r <;> rfl

theorem readRow_isCommand (r : Reg) : r.readRow.isCommand = false := by
  cases r <;> rfl

/-- Every well-formed bus row decodes from its access. -/
theorem decodeAccess_encode {i : Instr} (hwf : i.wf = true) (hbus : i.isCommand = false) :
    decodeAccess (encode i) = i := by
  cases rowKind i with
  | command c => simp [toInstr_isCommand] at hbus
  | write r w => rw [encode_writeRow, decodeAccess_write]
  | read r => rw [encode_readRow, decodeAccess_read]
  | narrow we be addr wdata => exact decodeAccess_narrow (bne_iff_ne.1 hwf)
  | misaligned we addr wdata => exact decodeAccess_misaligned rfl (bne_iff_ne.1 hwf)

/-- A command row's access is the write of its word to CMD, and the word decodes to the command. -/
theorem decode_encode_command {i : Instr} (hcmd : i.isCommand = true) :
    ∃ w c, decodeAccess (encode i) = .wrCmd w ∧ decodeCommand w = .ok c ∧ c.toInstr = i := by
  cases rowKind i with
  | command c =>
    refine ⟨c.encode, c, ?_, (commandDecodesIffCanonicalWord c c.encode).2 rfl, rfl⟩
    rw [encode_toInstr]
    exact decodeAccess_write .cmd c.encode
  | write r w => simp [writeRow_isCommand] at hcmd
  | read r => simp [readRow_isCommand] at hcmd
  | narrow | misaligned => simp [Instr.isCommand] at hcmd

/-- Settles O5: a bus row by `decodeAccess_encode`, a command row by `decode_encode_command`. -/
theorem encodedInstructionDecodes : Obligations.EncodedInstructionDecodes := by
  unfold Obligations.EncodedInstructionDecodes
  exact fun i hwf => ⟨decodeAccess_encode hwf, decode_encode_command⟩

/-! ## Accesses encoded again -/

theorem decodeAccess_wf (a : Access) : (decodeAccess a).wf = true := by
  by_cases hbe : a.be = 0xF
  · by_cases haddr : a.addr.extractLsb' 0 2 = 0
    · rw [decodeAccess_good ((access_good_iff a).2 ⟨hbe, haddr⟩)]
      split
      · exact writeRow_wf ..
      · exact readRow_wf _
    · rw [decodeAccess_misaligned hbe haddr]
      exact bne_iff_ne.2 haddr
  · rw [decodeAccess_narrow hbe]
    exact bne_iff_ne.2 hbe

/-- A bad access is encoded back as it is, with its wdata in either direction. -/
theorem encode_decodeAccess_bad {a : Access} (h : a.good = false) : encode (decodeAccess a) = a := by
  by_cases hbe : a.be = 0xF
  · have haddr : a.addr.extractLsb' 0 2 ≠ 0 := fun haddr => by simp [(access_good_iff a).2 ⟨hbe, haddr⟩] at h
    rw [decodeAccess_misaligned hbe haddr, encode, ← hbe]
  · rw [decodeAccess_narrow hbe, encode]

/-- A good access is encoded back at its register's offset, a read with wdata 0 (log entry 9). -/
theorem encode_decodeAccess_good {a : Access} (h : a.good = true) :
    encode (decodeAccess a) = if a.we then a else { a with wdata := 0 } := by
  obtain ⟨hbe, haddr⟩ := (access_good_iff a).1 h
  rw [decodeAccess_good h]
  by_cases hwe : a.we = true
  · rw [if_pos hwe, if_pos hwe]
    calc encode ((Reg.at a.addr).writeRow a.wdata) = .write (Reg.at a.addr) a.wdata := encode_writeRow ..
      _ = a := by rw [Access.write, offset_regAt haddr, ← hbe, ← hwe]
  · rw [if_neg hwe, if_neg hwe]
    calc encode (Reg.at a.addr).readRow = .read (Reg.at a.addr) := encode_readRow _
      _ = { a with wdata := 0 } := by
        rw [Access.read, offset_regAt haddr, ← hbe, ← Bool.eq_false_of_not_eq_true hwe]

/-- Settles O6: a bad access and a good write come back whole, a good read with wdata 0. -/
theorem decodedAccessReencodes : Obligations.DecodedAccessReencodes := by
  unfold Obligations.DecodedAccessReencodes
  refine fun a => ⟨decodeAccess_wf a, ?_⟩
  cases hgood : a.good with
  | false => simpa using encode_decodeAccess_bad hgood
  | true =>
    rw [encode_decodeAccess_good hgood]
    cases a.we <;> rfl

end Sys2Proof.Proofs
end

section
/-! PROOFS. The statements of 40_compression.md: the mixing functions and the constant table, the round and
accumulate steps, and BLOCK from its acceptance to the compressed digest state. -/

open Sys2Proof Sys2Proof.Machine

namespace Sys2Proof.Proofs

/-! ## BLOCK -/

/-- An idle core without a final digest accepts BLOCK (R112, R208). -/
theorem exec_block_accepted {s : State} (hidle : s.regs.fsm = .idle) (hopen : s.regs.dvalid = false) :
    exec .block s = complete s.regs.acceptBlock 0 s :=
  attempt_accepted ((commandError_block_eq_none _).2 ⟨(busy_eq_false_iff _).2 hidle, hopen⟩) _

/-- With nothing pending, an accepted BLOCK is followed by the core's own steps alone (R106, R112). -/
theorem run_after_block {s : State} (hready : s.Ready) (hmoves : s.moves = []) :
    ∃ t, exec .block s = .next t ∧
      ∀ n, run n t = .next { t with regs := Regs.coreStep^[n] s.regs.acceptBlock } :=
  ⟨_, exec_block_accepted hready.idle hready.open_, run_alone hmoves hready.outOfReset⟩

/-- The 65 core steps of BLOCK compress the block into H and go idle; besides H they leave only the working
tuple, RI and CONT at new values (R107, R110 to R112). -/
theorem iterate_acceptBlock (r : Regs) :
    ∃ a b c d, Regs.coreStep^[65] r.acceptBlock =
      { r with
        h := Canonical.compress r.h r.blk, ra := a, rb := b, rc := c, rd := d, ri := 0
        fsm := .idle, cont := .doneBlock } :=
  iterate_compression_ex { r with cont := .doneBlock }

/-- Settles O44: the 65 core steps after the acceptance are one compression. -/
theorem blockCompressesWorkingBlock : Obligations.BlockCompressesWorkingBlock := by
  unfold Obligations.BlockCompressesWorkingBlock
  intro s hready hmoves
  obtain ⟨t, hexec, hrun⟩ := run_after_block hready hmoves
  obtain ⟨a, b, c, d, hend⟩ := iterate_acceptBlock s.regs
  refine ⟨t, _, hexec, hrun 65, ?_⟩
  rw [hend]
  exact ⟨rfl, rfl, rfl⟩

/-- Settles O41: the core is busy in the round steps and at the accumulate step, which is the 65th. -/
theorem blockTakes65CoreSteps : Obligations.BlockTakes65CoreSteps := by
  unfold Obligations.BlockTakes65CoreSteps
  intro s hready hmoves
  obtain ⟨t, hexec, hrun⟩ := run_after_block hready hmoves
  obtain ⟨a, b, c, d, hend⟩ := iterate_acceptBlock s.regs
  refine ⟨t, hexec, fun k hk => ⟨_, hrun k, busy_fromStart _ k (by omega)⟩, _, hrun 65, ?_⟩
  rw [hend]
  exact ⟨rfl, hready.open_⟩

/-- Settles O17: the checks pass, and the acceptance writes CONT, the tuple, RI and FSM. -/
theorem blockStartsCompression : Obligations.BlockStartsCompression := by
  unfold Obligations.BlockStartsCompression
  exact fun s hidle hopen => exec_block_accepted hidle hopen

/-! ## The round step -/

/-- Settles O40: n steps of the machine are n round steps, which reach RI = 64, that is 0, with the last. -/
theorem roundStepsReachAccumulate : Obligations.RoundStepsReachAccumulate := by
  unfold Obligations.RoundStepsReachAccumulate
  intro s n hmoves hrst hround hn
  have hri : s.regs.ri.toNat < 64 := s.regs.ri.isLt
  obtain ⟨a, b, c, d, hregs⟩ := iterate_roundSteps hround n hn
  refine ⟨_, run_alone hmoves hrst n, ?_⟩
  rw [hregs]
  refine ⟨rfl, rfl, rfl, rfl, rfl, rfl, rfl, fun hlt => ?_, fun heq => ?_⟩
  · exact ⟨if_neg (by omega), Nat.mod_eq_of_lt (by omega)⟩
  · have hlast : s.regs.ri.toNat + n = 64 := by omega
    exact ⟨if_pos hlast, by rw [hlast]; rfl⟩

/-- The step index counts modulo 64 (R26, R109). -/
theorem stepIndex_succ (i : BitVec 6) : i + 1 = BitVec.ofNat 6 ((i.toNat + 1) % 64) :=
  BitVec.eq_of_toNat_eq (by simp [BitVec.toNat_add])

theorem stepIndex_eq_last_iff (i : BitVec 6) : i = 63 ↔ i.toNat = 63 := BitVec.toNat_inj.symm

/-- Settles O37: the round step with its value, index and last step spelled out. -/
theorem roundStepUpdatesTuple : Obligations.RoundStepUpdatesTuple := by
  unfold Obligations.RoundStepUpdatesTuple
  intro r hround
  simp only [coreStep_round hround, Regs.roundStep, roundValue, groupOf, stepIndex_succ,
    stepIndex_eq_last_iff, hround]

/-! ## The accumulate step -/

/-- The block that a two-block FINAL builds when its first compression ends (R146, R147). -/
def secondBlock (r : Regs) : Vector Word 16 :=
  if r.cont = .next80Len then pad80Len r.len r.blk else padLenOnly r.len r.blk

theorem blkByte_secondBlock (r : Regs) (n : Fin 64) :
    blkByte (secondBlock r) n =
      if 56 ≤ n.val then lenByte r.len (n.val - 56)
      else if n.val = 0 ∧ r.cont = .next80Len then 0x80 else 0x00 := by
  unfold secondBlock
  split
  · next h => simp only [blkByte_pad80Len, h, and_true]
  · next h => simp only [blkByte_padLenOnly, h, and_false, if_false]

/-- The accumulate step that goes on builds the second block and starts its compression (R111). -/
theorem accumulate_next {r : Regs} (h : r.cont = .nextLenOnly ∨ r.cont = .next80Len) :
    r.accumulate = { r.addTuple with blk := secondBlock r, cont := .doneFinal }.startCompress := by
  obtain h | h := h
  · simp only [accumulate_nextLenOnly h, secondBlock, h, reduceCtorEq, if_false]
  · simp only [accumulate_next80Len h, secondBlock, h, if_true]

/-- Settles O38, by the values of CONT. -/
theorem accumulateStepContinues : Obligations.AccumulateStepContinues := by
  unfold Obligations.AccumulateStepContinues
  intro r hacc
  rw [coreStep_accum hacc]
  refine ⟨r.addTuple.h, secondBlock r, ⟨rfl, rfl, rfl, rfl⟩, accumulate_doneBlock,
    accumulate_doneFinal, fun hnext => ⟨accumulate_next hnext, fun n => ?_⟩⟩
  rw [blkByte_secondBlock]
  refine ⟨fun hzero => ?_, fun hpos hlt => ?_, fun hlen => ?_⟩
  · simp [hzero]
  · rw [if_neg (by omega), if_neg (by omega)]
  · rw [if_pos hlen, lenByte_toNat]

/-! ## Every core step -/

/-- No core step records an error or clears one (R106). -/
theorem coreStep_errorRecord (r : Regs) : r.coreStep.cerr = r.cerr ∧ r.coreStep.ecode = r.ecode := by
  cases hf : r.fsm with
  | idle => rw [coreStep_idle hf]; exact ⟨rfl, rfl⟩
  | round => rw [coreStep_round hf]; exact ⟨rfl, rfl⟩
  | accum => rw [coreStep_accum hf]; exact (accumulate_frame r).2.2

/-- After the accumulate step the core is idle or in its next compression (R111). -/
theorem accumulate_fsm (r : Regs) : r.accumulate.fsm = .idle ∨ r.accumulate.fsm = .round := by
  cases hc : r.cont with
  | doneBlock => rw [accumulate_doneBlock hc]; exact .inl rfl
  | doneFinal => rw [accumulate_doneFinal hc]; exact .inl rfl
  | nextLenOnly => rw [accumulate_next (.inl hc)]; exact .inr rfl
  | next80Len => rw [accumulate_next (.inr hc)]; exact .inr rfl

/-- A busy core moves on: a round step changes RI, the accumulate step FSM (R106). -/
theorem coreStep_ne_self {r : Regs} (h : r.fsm ≠ .idle) : r.coreStep ≠ r := by
  intro hsame
  cases hf : r.fsm with
  | idle => exact h hf
  | round =>
    have hri : r.ri + 1 = r.ri := by simpa [coreStep_round hf] using congrArg Regs.ri hsame
    bv_omega
  | accum =>
    rw [coreStep_accum hf] at hsame
    have hleft := accumulate_fsm r
    simp [hsame, hf] at hleft

/-- Settles O39, from the frame of each kind of step. -/
theorem coreStepFrame : Obligations.CoreStepFrame := by
  unfold Obligations.CoreStepFrame
  intro r
  obtain ⟨hcerr, hecode⟩ := coreStep_errorRecord r
  refine ⟨coreStep_len r, hcerr, hecode, coreStep_idle, fun hround => ?_, coreStep_ne_self⟩
  rw [coreStep_round hround]
  exact ⟨rfl, rfl, rfl, rfl⟩

/-! ## The mixing functions -/

theorem mix_0 (x y z : Word) : mix 0 x y z = (x &&& y) ||| (~~~x &&& z) := rfl
theorem mix_1 (x y z : Word) : mix 1 x y z = (x &&& z) ||| (y &&& ~~~z) := rfl
theorem mix_2 (x y z : Word) : mix 2 x y z = x ^^^ y ^^^ z := rfl
theorem mix_3 (x y z : Word) : mix 3 x y z = y ^^^ (x ||| ~~~z) := rfl

/-- Settles O35: each function on one bit, F0 and F1 by the bit that chooses. -/
theorem mixFunctionsBitwise : Obligations.MixFunctionsBitwise := by
  unfold Obligations.MixFunctionsBitwise
  intro x y z k hk
  simp only [mix_0, mix_1, mix_2, mix_3, BitVec.getLsbD_or, BitVec.getLsbD_and, BitVec.getLsbD_xor,
    BitVec.getLsbD_not, hk, decide_true, Bool.true_and]
  refine ⟨?_, ?_, trivial, trivial⟩
  · cases x.getLsbD k <;> simp
  · cases z.getLsbD k <;> simp

/-! ## The constant table -/

theorem groupOf_toNat (i : BitVec 6) : (groupOf i).toNat = i.toNat / 16 := by
  have hi : i.toNat < 64 := i.isLt
  rw [groupOf, BitVec.extractLsb'_toNat, Nat.shiftRight_eq_div_pow]
  omega

theorem groupOf_eq_iff (i : BitVec 6) (g : BitVec 2) : groupOf i = g ↔ i.toNat / 16 = g.toNat := by
  rw [← groupOf_toNat, BitVec.toNat_inj]

/-- Within a group, K takes different steps to different block words (R101). -/
theorem kIndex_group_injective (g : Fin 4) :
    Function.Injective fun i : Fin 16 => kIndex (BitVec.ofNat 6 (16 * g.val + i.val)) := by
  revert g
  unfold Function.Injective
  decide

/-- Settles O36: F by the group of the step, each column by evaluation, and each block word once per group
because K is injective on the 16 steps of a group. -/
theorem indexAndRotationColumns : Obligations.IndexAndRotationColumns := by
  unfold Obligations.IndexAndRotationColumns
  refine ⟨fun i x y z => ?_, by decide, by decide, by decide, fun g k => ?_⟩
  · simp only [mix, groupOf_eq_iff]
    rfl
  · exact (Finite.injective_iff_bijective.1 (kIndex_group_injective g)).existsUnique k

end Sys2Proof.Proofs
end

section
/-! PROOFS. The statements of 41_finalization.md: the length field, the blocks FINAL builds, how long FINAL
takes, the digest it yields, and how long that digest is held. -/

open Sys2Proof Sys2Proof.Machine

namespace Sys2Proof.Proofs

/-! ## The length field -/

theorem bitLen_toNat (len : BitVec 64) : (bitLen len).toNat = (len.toNat * 8) % 2 ^ 64 := by
  rw [bitLen, BitVec.toNat_shiftLeft, Nat.shiftLeft_eq]

/-- Four bytes of the length field side by side are 32 bits of BITLEN (R56, R141). -/
theorem packWord_lenByte (len : BitVec 64) (k : Nat) :
    packWord (lenByte len k) (lenByte len (k + 1)) (lenByte len (k + 2)) (lenByte len (k + 3)) =
      (bitLen len).extractLsb' (8 * k) 32 := by
  simp only [packWord, lenByte, Nat.mul_add]
  generalize 8 * k = start
  repeat rw [BitVec.extractLsb'_append_extractLsb'_eq_extractLsb' (by omega)]

/-- The word of four bytes of the length field (R58). -/
theorem putLen_getElem_high (len : BitVec 64) (blk : Vector Word 16) (j : Nat) (hlow : 14 ≤ j)
    (hj : j < 16) : (putLen len blk)[j] = (bitLen len).extractLsb' (8 * (4 * (j - 14))) 32 := by
  rw [← packWord_lenByte, getElem_eq_packWord _ j hj]
  simp only [blkByte_putLen]
  repeat rw [if_pos (by omega)]
  congr 2 <;> omega

/-- Settles O11: the byte view of PutLen gives the bytes, four of them side by side the two last words, and
the other words have all their bytes below 56. -/
theorem putLenWritesBitLength : Obligations.PutLenWritesBitLength := by
  unfold Obligations.PutLenWritesBitLength
  intro len blk
  refine ⟨bitLen_toNat len, fun n k hn => ?_, putLen_getElem_high len blk 14 (by omega) (by omega),
    putLen_getElem_high len blk 15 (by omega) (by omega), fun j hj => ?_⟩
  · rw [blkByte_putLen, if_pos (by omega), lenByte_toNat, hn, Nat.add_sub_cancel_left]
  · exact getElem_eq_of_bytes j.isLt fun n hn => by rw [blkByte_putLen, if_neg (by omega)]

/-! ## The acceptance of FINAL -/

/-- An idle core without a final digest accepts FINAL with FILLED up to 64 (R142, R208). -/
theorem exec_final_accepted {s : State} {f : BitVec 7} (hidle : s.regs.fsm = .idle)
    (hopen : s.regs.dvalid = false) (hf : f.toNat ≤ 64) :
    exec (.final f) s = complete (s.regs.acceptFinal f) 0 s :=
  attempt_accepted ((commandError_final_eq_none _ _).2 ⟨(busy_eq_false_iff _).2 hidle, hopen, hf⟩) _

/-- The one block of FINAL 0 to 55 (R143). -/
def onlyBlock (f : BitVec 7) (r : Regs) : Vector Word 16 := putLen r.len (markAndZero f.toNat 55 r.blk)

/-- The registers from which FINAL 56 to 64 starts its first compression (R144, R145). -/
def firstOfTwo (f : BitVec 7) (r : Regs) : Regs :=
  if f.toNat ≤ 63 then { r with blk := markAndZero f.toNat 63 r.blk, cont := .nextLenOnly }
  else { r with cont := .next80Len }

theorem acceptFinal_oneBlock {f : BitVec 7} (hf : f.toNat ≤ 55) (r : Regs) :
    r.acceptFinal f = { r with blk := onlyBlock f r, cont := .doneFinal }.startCompress := by
  rw [Regs.acceptFinal, if_pos (by omega), onlyBlock]

theorem acceptFinal_twoBlocks {f : BitVec 7} (hf : 55 < f.toNat) (r : Regs) :
    r.acceptFinal f = (firstOfTwo f r).startCompress := by
  rw [Regs.acceptFinal, if_neg (by omega), firstOfTwo]
  split <;> rfl

theorem firstOfTwo_dvalid (f : BitVec 7) (r : Regs) : (firstOfTwo f r).dvalid = r.dvalid := by
  unfold firstOfTwo
  split <;> rfl

theorem firstOfTwo_len (f : BitVec 7) (r : Regs) : (firstOfTwo f r).len = r.len := by
  unfold firstOfTwo
  split <;> rfl

theorem firstOfTwo_cont_eq_next80Len_iff (f : BitVec 7) (r : Regs) :
    (firstOfTwo f r).cont = .next80Len ↔ 63 < f.toNat := by
  unfold firstOfTwo
  split
  · simpa
  · simpa using Nat.lt_of_not_le ‹_›

/-- The first block of two keeps the message bytes, and marks and zeroes what is left of it; FINAL 64 leaves
nothing to mark (R144, R145). -/
theorem blkByte_firstOfTwo (f : BitVec 7) (r : Regs) (n : Fin 64) :
    blkByte (firstOfTwo f r).blk n =
      if n.val < f.toNat then blkByte r.blk n else if n.val = f.toNat then 0x80 else 0x00 := by
  unfold firstOfTwo
  split
  · simp only [blkByte_markAndZero]
    grind
  · rw [if_pos (by omega)]

/-- The second block of two: 0x80 at its start only after a full first block (R146, R147). -/
theorem blkByte_secondOfTwo (f : BitVec 7) (r : Regs) (n : Fin 64) :
    blkByte (secondBlock (firstOfTwo f r)) n =
      if 56 ≤ n.val then lenByte r.len (n.val - 56)
      else if n.val = 0 ∧ 63 < f.toNat then 0x80 else 0x00 := by
  simp only [blkByte_secondBlock, firstOfTwo_len, firstOfTwo_cont_eq_next80Len_iff]

/-- The one block: the message bytes, 0x80, zeros to byte 55, BITLEN (R143). -/
theorem blkByte_onlyBlock {f : BitVec 7} (hf : f.toNat ≤ 55) (r : Regs) (n : Fin 64) :
    blkByte (onlyBlock f r) n =
      if 56 ≤ n.val then lenByte r.len (n.val - 56)
      else if n.val < f.toNat then blkByte r.blk n else if n.val = f.toNat then 0x80 else 0x00 := by
  rw [onlyBlock, blkByte_putLen, blkByte_markAndZero]
  grind

/-- Settles O18: the checks pass, and the acceptance writes the one padded block. -/
theorem finalBuildsOneBlock : Obligations.FinalBuildsOneBlock := by
  unfold Obligations.FinalBuildsOneBlock
  intro s f hidle hopen hf
  refine ⟨onlyBlock f s.regs, ?_, fun n => ?_⟩
  · rw [exec_final_accepted hidle hopen (by omega), acceptFinal_oneBlock (by omega)]
    rfl
  · rw [blkByte_onlyBlock (by omega)]
    refine ⟨fun hmessage => ?_, fun hmark => ?_, fun hzero hlt => ?_, fun hlen => ?_⟩
    · rw [if_neg (by omega), if_pos hmessage]
    · rw [if_neg (by omega), if_neg (by omega), if_pos hmark]
    · rw [if_neg (by omega), if_neg (by omega), if_neg (by omega)]
    · rw [if_pos hlen, lenByte_toNat]

/-- Settles O19: the checks pass, and the acceptance writes the first block of two. -/
theorem finalBuildsFirstOfTwoBlocks : Obligations.FinalBuildsFirstOfTwoBlocks := by
  unfold Obligations.FinalBuildsFirstOfTwoBlocks
  intro s f hidle hopen hlow hhigh
  refine ⟨(firstOfTwo f s.regs).blk, ?_, fun n => ?_⟩
  · rw [exec_final_accepted hidle hopen (by omega), acceptFinal_twoBlocks (by omega), firstOfTwo,
      if_pos hhigh]
    rfl
  · rw [blkByte_firstOfTwo]
    refine ⟨fun hmessage => ?_, fun hmark => ?_, fun hzero => ?_⟩
    · rw [if_pos hmessage]
    · rw [if_neg (by omega), if_pos hmark]
    · rw [if_neg (by omega), if_neg (by omega)]

/-- Settles O20: the checks pass, and the acceptance of 64 writes CONT alone before it starts. -/
theorem finalKeepsFullBlock : Obligations.FinalKeepsFullBlock := by
  unfold Obligations.FinalKeepsFullBlock
  exact fun s hidle hopen => exec_final_accepted hidle hopen (by decide)

/-! ## The compressions of FINAL -/

/-- With nothing pending, an accepted FINAL is followed by the core's own steps alone (R106, R142). -/
theorem run_after_final {s : State} {f : BitVec 7} (hready : s.Ready) (hmoves : s.moves = [])
    (hf : f.toNat ≤ 64) :
    ∃ t, exec (.final f) s = .next t ∧
      ∀ n, run n t = .next { t with regs := Regs.coreStep^[n] (s.regs.acceptFinal f) } :=
  ⟨_, exec_final_accepted hready.idle hready.open_ hf, run_alone hmoves hready.outOfReset⟩

/-- The registers from which FINAL starts its last compression: at acceptance, or when its first block has
been compressed (R143, R146, R147). -/
def lastCompression (f : BitVec 7) (r : Regs) : Regs :=
  if f.toNat ≤ 55 then { r with blk := onlyBlock f r, cont := .doneFinal }
  else
    { r with
      h := Canonical.compress r.h (firstOfTwo f r).blk, blk := secondBlock (firstOfTwo f r)
      cont := .doneFinal }

theorem lastCompression_cont (f : BitVec 7) (r : Regs) : (lastCompression f r).cont = .doneFinal := by
  unfold lastCompression
  split <;> rfl

theorem lastCompression_dvalid (f : BitVec 7) (r : Regs) : (lastCompression f r).dvalid = r.dvalid := by
  unfold lastCompression
  split <;> rfl

/-- A compression after which the core goes on ends by starting the one of the second block (R111). -/
theorem iterate_compression_next {r : Regs} (h : r.cont = .nextLenOnly ∨ r.cont = .next80Len) :
    Regs.coreStep^[65] r.startCompress =
      { r with
        h := Canonical.compress r.h r.blk, blk := secondBlock r, cont := .doneFinal : Regs }.startCompress := by
  obtain h | h := h
  · simp only [iterate_compression_nextLenOnly h, secondBlock, h, reduceCtorEq, if_false]
  · simp only [iterate_compression_next80Len h, secondBlock, h, if_true]

theorem acceptFinal_eq_lastCompression {f : BitVec 7} (hf : f.toNat ≤ 55) (r : Regs) :
    r.acceptFinal f = (lastCompression f r).startCompress := by
  rw [acceptFinal_oneBlock hf, lastCompression, if_pos hf]

/-- FINAL 56 to 64 comes to its last compression after the 65 core steps of the first (R144, R145). -/
theorem iterate_acceptFinal_first {f : BitVec 7} (hf : 55 < f.toNat) (r : Regs) :
    Regs.coreStep^[65] (r.acceptFinal f) = (lastCompression f r).startCompress := by
  rw [acceptFinal_twoBlocks hf, lastCompression, if_neg (by omega)]
  unfold firstOfTwo
  split
  · exact iterate_compression_next (.inl rfl)
  · exact iterate_compression_next (.inr rfl)

/-- FINAL 56 to 64 goes on with its last compression (R111). -/
theorem iterate_acceptFinal_add {f : BitVec 7} (hf : 55 < f.toNat) (r : Regs) (n : Nat) :
    Regs.coreStep^[n + 65] (r.acceptFinal f) = Regs.coreStep^[n] (lastCompression f r).startCompress := by
  rw [Function.iterate_add_apply, iterate_acceptFinal_first hf]

theorem coreStepCount_final (f : BitVec 7) :
    coreStepCount (.final f) = if f.toNat ≤ 55 then 65 else 130 := rfl

/-- FINAL comes to its end with its last compression (R150, R240). -/
theorem iterate_acceptFinal_end (f : BitVec 7) (r : Regs) :
    Regs.coreStep^[coreStepCount (.final f)] (r.acceptFinal f) =
      Regs.coreStep^[65] (lastCompression f r).startCompress := by
  rw [coreStepCount_final]
  split
  · next hf => rw [acceptFinal_eq_lastCompression hf]
  · next hf => exact iterate_acceptFinal_add (by omega) r 65

/-- The last compression makes the digest final, and the core idle (R111). -/
theorem iterate_lastCompression (f : BitVec 7) (r : Regs) :
    ∃ a b c d, Regs.coreStep^[65] (lastCompression f r).startCompress =
      { lastCompression f r with
        h := Canonical.compress (lastCompression f r).h (lastCompression f r).blk
        ra := a, rb := b, rc := c, rd := d, ri := 0, fsm := .idle, dvalid := true } := by
  obtain ⟨a, b, c, d, h⟩ := iterate_compression_ex (lastCompression f r)
  refine ⟨a, b, c, d, ?_⟩
  rw [h]
  simp only [Regs.continueFinal, lastCompression_cont]

/-- No round step touches DVALID (R109). -/
theorem dvalid_fromStart (r : Regs) (n : Nat) (hn : n ≤ 64) :
    (Regs.coreStep^[n] r.startCompress).dvalid = r.dvalid := by
  rw [iterate_fromStart r n hn]

/-- Until its last step FINAL keeps the core busy and DVALID as it was (R150). -/
theorem iterate_acceptFinal_running (f : BitVec 7) (r : Regs) (k : Nat)
    (hk : k < coreStepCount (.final f)) :
    (Regs.coreStep^[k] (r.acceptFinal f)).busy = true ∧
      (Regs.coreStep^[k] (r.acceptFinal f)).dvalid = r.dvalid := by
  rw [coreStepCount_final] at hk
  split at hk
  · next hf =>
    rw [acceptFinal_eq_lastCompression hf, dvalid_fromStart _ k (by omega), lastCompression_dvalid]
    exact ⟨busy_fromStart _ k (by omega), rfl⟩
  next hf =>
  by_cases hfirst : k < 65
  · rw [acceptFinal_twoBlocks (by omega), dvalid_fromStart _ k (by omega), firstOfTwo_dvalid]
    exact ⟨busy_fromStart _ k (by omega), rfl⟩
  · obtain ⟨n, rfl⟩ : ∃ n, k = n + 65 := ⟨k - 65, by omega⟩
    rw [iterate_acceptFinal_add (by omega), dvalid_fromStart _ n (by omega), lastCompression_dvalid]
    exact ⟨busy_fromStart _ n (by omega), rfl⟩

/-- Settles O42: busy in every core step before the last, which makes the digest final. -/
theorem finalTakes65Or130CoreSteps : Obligations.FinalTakes65Or130CoreSteps := by
  unfold Obligations.FinalTakes65Or130CoreSteps
  intro s f hready hmoves hf
  obtain ⟨t, hexec, hrun⟩ := run_after_final hready hmoves hf
  refine ⟨t, hexec, fun k hk => ?_, _, hrun (coreStepCount (.final f)), ?_⟩
  · obtain ⟨hbusy, hdvalid⟩ := iterate_acceptFinal_running f s.regs k hk
    exact ⟨_, hrun k, hbusy, hdvalid.trans hready.open_⟩
  · obtain ⟨a, b, c, d, hend⟩ := iterate_lastCompression f s.regs
    rw [iterate_acceptFinal_end, hend]
    exact ⟨rfl, rfl, lastCompression_cont f s.regs⟩

/-! ## A full last block -/

/-- The end of BLOCK: the core is ready for the next command, with nothing pending (R107, R112). -/
theorem block_ends_ready {s : State} (hready : s.Ready) (hmoves : s.moves = []) :
    ∃ t u, exec .block s = .next t ∧ run 65 t = .next u ∧ u.Ready ∧ u.moves = [] ∧
      u.regs = Regs.coreStep^[65] s.regs.acceptBlock := by
  obtain ⟨a, b, c, d, hend⟩ := iterate_acceptBlock s.regs
  have hidle : (Regs.coreStep^[65] s.regs.acceptBlock).fsm = .idle := by rw [hend]
  have hopen : (Regs.coreStep^[65] s.regs.acceptBlock).dvalid = false := by rw [hend]; exact hready.open_
  have hrun := run_alone (s := { s with regs := s.regs.acceptBlock, reply := ⟨0, false⟩ }) hmoves
    hready.outOfReset 65
  generalize Regs.coreStep^[65] s.regs.acceptBlock = r at *
  exact ⟨_, _, exec_block_accepted hready.idle hready.open_, hrun, ⟨hready.outOfReset, hidle, hopen⟩,
    hmoves, rfl⟩

/-- BLOCK and then FINAL 0 come to the last compression of FINAL 64: the padding of FINAL 0 is the second
block of FINAL 64 (R145, R147). -/
theorem acceptFinal_zero_after_block (r : Regs) :
    (Regs.coreStep^[65] r.acceptBlock).acceptFinal 0 = (lastCompression 64 r).startCompress := by
  obtain ⟨a, b, c, d, hend⟩ := iterate_acceptBlock r
  rw [hend]
  rfl

/-- Settles O47: both ways end with the same last compression. -/
theorem fullLastBlockEitherWay : Obligations.FullLastBlockEitherWay := by
  unfold Obligations.FullLastBlockEitherWay
  intro s hready hmoves
  obtain ⟨t, hfull, hfullRun⟩ := run_after_final (f := 64) hready hmoves (by decide)
  obtain ⟨v, w, hblock, hblockRun, hready', hmoves', hregs⟩ := block_ends_ready hready hmoves
  obtain ⟨x, hzero, hzeroRun⟩ := run_after_final (f := 0) hready' hmoves' (by decide)
  refine ⟨t, _, v, w, x, _, hfull, hfullRun 130, hblock, hblockRun, hzero, hzeroRun 65, ?_⟩
  have hcount : coreStepCount (.final 64) = 130 := rfl
  dsimp only
  calc Regs.coreStep^[130] (s.regs.acceptFinal 64)
      = Regs.coreStep^[65] (lastCompression 64 s.regs).startCompress := by
        rw [← hcount, iterate_acceptFinal_end]
    _ = Regs.coreStep^[65] (w.regs.acceptFinal 0) := by rw [hregs, acceptFinal_zero_after_block]

/-! ## The message -/

/-- A working block that holds 64 bytes is their one block (R56). -/
theorem blockAt_of_holds {b : List Byte} {r : Regs} (hlen : b.length = 64) (h : Holds b r) :
    Canonical.blockAt b 0 = r.blk := by
  refine blk_ext fun n => ?_
  rw [Canonical.blockAt, blkByte_blkOfBytes, h n (by omega)]
  simp

theorem blocks_of_length_one {b : List Byte} (h : b.length = 64) :
    Canonical.blocks b = [Canonical.blockAt b 0] := by
  rw [Canonical.blocks, h]
  rfl

theorem blocks_of_length_two {b : List Byte} (h : b.length = 128) :
    Canonical.blocks b = [Canonical.blockAt b 0, Canonical.blockAt b 1] := by
  rw [Canonical.blocks, h]
  rfl

/-- Compressing one more block extends what has been absorbed by its bytes (R113). -/
theorem absorbed_append_block {m b : List Byte} {r r' : Regs} (hm : Absorbed m r) (hlen : b.length = 64)
    (hb : Holds b r) (hh : r'.h = Canonical.compress r.h r.blk) : Absorbed (m ++ b) r' where
  whole := by rw [List.length_append, hlen, Nat.add_mod_right, hm.whole]
  state := by
    rw [hh, Canonical.absorb_append _ _ _ hm.whole, ← hm.state, Canonical.absorb,
      blocks_of_length_one hlen, blockAt_of_holds hlen hb]
    rfl

/-- Settles O45: the 65 core steps of BLOCK are one compression, after which the core is ready. -/
theorem blockAbsorbsSixtyFourBytes : Obligations.BlockAbsorbsSixtyFourBytes := by
  unfold Obligations.BlockAbsorbsSixtyFourBytes
  intro s m b hready hmoves hm hlen hb
  obtain ⟨t, u, hexec, hrun, hready', -, hregs⟩ := block_ends_ready hready hmoves
  have hh : u.regs.h = Canonical.compress s.regs.h s.regs.blk := by
    rw [hregs]
    exact iterate_compression_h { s.regs with cont := .doneBlock }
  exact ⟨t, u, hexec, hrun, hready', absorbed_append_block hm hlen hb hh⟩

/-! ## The padded message -/

theorem zeroCount_oneBlock {n : Nat} (h : n ≤ 55) : Canonical.zeroCount n = 55 - n := by
  unfold Canonical.zeroCount
  omega

theorem zeroCount_twoBlocks {n : Nat} (hlow : 55 < n) (hhigh : n ≤ 64) :
    Canonical.zeroCount n = 119 - n := by
  unfold Canonical.zeroCount
  omega

/-- The bytes of a padded tail before its length field. -/
theorem paddedTail_getD_low (t : List Byte) (total : Nat) {k : Nat}
    (h : k < t.length + 1 + Canonical.zeroCount t.length) :
    (Canonical.paddedTail t total).getD k 0 =
      if k < t.length then t.getD k 0 else if k = t.length then 0x80 else 0x00 := by
  rw [Canonical.paddedTail_getD, if_pos h]

/-- The length field of a padded tail is the one the core puts down from LEN (R140, R141). -/
theorem paddedTail_getD_lengthField (t : List Byte) (total k : Nat) {j : Nat} (hj : j < 8)
    (h : k = t.length + 1 + Canonical.zeroCount t.length + j) :
    (Canonical.paddedTail t total).getD k 0 = lenByte (BitVec.ofNat 64 total) j := by
  rw [Canonical.paddedTail_getD, if_neg (by omega), if_neg (by omega), if_neg (by omega), h,
    Nat.add_sub_cancel_left, Canonical.le64_getD _ _ hj, Canonical.lenByte_ofNat _ _ hj]

section
variable {t : List Byte} {total : Nat} {f : BitVec 7} {r : Regs}

/-- The one block of FINAL is the padded tail (R143). -/
theorem blockAt_paddedTail_only (hf : f.toNat = t.length) (hshort : t.length ≤ 55) (hheld : Holds t r)
    (hlen : Declares total r) :
    Canonical.blockAt (Canonical.paddedTail t total) 0 = onlyBlock f r := by
  have hzeros := zeroCount_oneBlock hshort
  refine blk_ext fun n => ?_
  rw [Canonical.blockAt, blkByte_blkOfBytes, blkByte_onlyBlock (by omega), hf, hlen, Nat.mul_zero,
    Nat.zero_add]
  split
  · exact paddedTail_getD_lengthField t total n.val (by omega) (by omega)
  · rw [paddedTail_getD_low t total (by omega)]
    split
    · next hmessage => exact (hheld n hmessage).symm
    · rfl

/-- The first of two blocks is the first 64 bytes of the padded tail (R144, R145). -/
theorem blockAt_paddedTail_first (hf : f.toNat = t.length) (hlong : 55 < t.length)
    (hfull : t.length ≤ 64) (hheld : Holds t r) :
    Canonical.blockAt (Canonical.paddedTail t total) 0 = (firstOfTwo f r).blk := by
  have hzeros := zeroCount_twoBlocks hlong hfull
  refine blk_ext fun n => ?_
  rw [Canonical.blockAt, blkByte_blkOfBytes, blkByte_firstOfTwo, hf, Nat.mul_zero, Nat.zero_add,
    paddedTail_getD_low t total (by omega)]
  split
  · next hmessage => exact (hheld n hmessage).symm
  · rfl

/-- The second of two blocks is the rest of the padded tail (R146, R147). -/
theorem blockAt_paddedTail_second (hf : f.toNat = t.length) (hlong : 55 < t.length)
    (hfull : t.length ≤ 64) (hlen : Declares total r) :
    Canonical.blockAt (Canonical.paddedTail t total) 1 = secondBlock (firstOfTwo f r) := by
  have hzeros := zeroCount_twoBlocks hlong hfull
  refine blk_ext fun n => ?_
  rw [Canonical.blockAt, blkByte_blkOfBytes, blkByte_secondOfTwo, hf, hlen]
  split
  · exact paddedTail_getD_lengthField t total _ (by omega) (by omega)
  · rw [paddedTail_getD_low t total (by omega), if_neg (by omega)]
    exact if_congr (by omega) rfl rfl

/-- The last compression of FINAL ends in the digest state after the padded tail (R151). -/
theorem compress_lastCompression (hf : f.toNat = t.length) (hfull : t.length ≤ 64) (hheld : Holds t r)
    (hlen : Declares total r) :
    Canonical.compress (lastCompression f r).h (lastCompression f r).blk =
      Canonical.absorb r.h (Canonical.paddedTail t total) := by
  have hpadded := Canonical.paddedTail_length t total
  by_cases hshort : t.length ≤ 55
  · have hzeros := zeroCount_oneBlock hshort
    rw [Canonical.absorb, blocks_of_length_one (by omega), blockAt_paddedTail_only hf hshort hheld hlen,
      lastCompression, if_pos (by omega)]
    rfl
  · have hzeros := zeroCount_twoBlocks (by omega) hfull
    rw [Canonical.absorb, blocks_of_length_two (by omega),
      blockAt_paddedTail_first hf (by omega) hfull hheld,
      blockAt_paddedTail_second hf (by omega) hfull hlen, lastCompression, if_neg (by omega)]
    rfl

end

/-- The digest of whole blocks and a tail: the padded tail absorbed after the blocks. -/
theorem md5_append {m t : List Byte} (h : m.length % 64 = 0) :
    Canonical.md5 (m ++ t) =
      Canonical.absorb (Canonical.absorb iv m) (Canonical.paddedTail t (m.length + t.length)) := by
  rw [Canonical.md5, Canonical.pad_append _ _ h, Canonical.absorb_append _ _ _ h]

/-- Settles O46: FINAL compresses the blocks of the padded tail into what has been absorbed. -/
theorem finalYieldsMd5OfMessage : Obligations.FinalYieldsMd5OfMessage := by
  unfold Obligations.FinalYieldsMd5OfMessage
  intro s m tail hready hmoves hm hfull hheld hlen
  have hf : (BitVec.ofNat 7 tail.length).toNat = tail.length := by
    rw [BitVec.toNat_ofNat, Nat.mod_eq_of_lt (by omega)]
  obtain ⟨t, hexec, hrun⟩ := run_after_final hready hmoves (hf.trans_le hfull)
  have hcount : coreStepCount (.final (BitVec.ofNat 7 tail.length)) =
      if tail.length ≤ 55 then 65 else 130 := by rw [coreStepCount_final, hf]
  refine ⟨t, _, hexec, hrun _, ?_⟩
  obtain ⟨a, b, c, d, hend⟩ := iterate_lastCompression (BitVec.ofNat 7 tail.length) s.regs
  rw [← hcount, iterate_acceptFinal_end, hend]
  refine ⟨?_, rfl, rfl⟩
  calc Canonical.compress _ _
      = Canonical.absorb s.regs.h (Canonical.paddedTail tail (m.length + tail.length)) :=
        compress_lastCompression hf hfull hheld hlen
    _ = Canonical.md5 (m ++ tail) := by rw [md5_append hm.whole, ← hm.state]

/-! ## A finished digest -/

/-- A write to CMD whose word is INIT, on an idle core, is what `acceptsInit` describes: a bus access
carries no command row (R80, R171). -/
theorem acceptsInit_of_access {s : State} {a : Access} {ms : List Move} (hm : s.moves = .access a :: ms)
    (h0 : s.rst = false) (hidle : s.regs.busy = false)
    (hinit : decodeAccess a = .init ∨ ∃ w, decodeAccess a = .wrCmd w ∧ decodeCommand w = .ok .init) :
    s.acceptsInit := by
  obtain hinit | ⟨w, hw, hcmd⟩ := hinit
  · have hbus := decodeAccess_isCommand a
    simp [hinit, Instr.isCommand] at hbus
  · exact ⟨h0, hidle, a, ms, w, hm, hw, hcmd⟩

/-- An instruction that finds DVALID = 1 keeps it and H, but for an accepted INIT: BLOCK and FINAL need
DVALID = 0 (R148, R206). -/
theorem regChange_of_dvalid {i : Instr} {r r' : Regs} (hd : r.dvalid = true) (hc : RegChange i r r') :
    (r'.h = r.h ∧ r'.dvalid = true) ∨
      ((i = .init ∨ ∃ w, i = .wrCmd w ∧ decodeCommand w = .ok .init) ∧ r.busy = false) := by
  cases hc with
  | same | error | lenLo | lenHi | blk => exact .inl ⟨rfl, hd⟩
  | init hi hb => exact .inr ⟨hi, hb⟩
  | block _ _ hopen | final _ _ _ hopen => simp [hd] at hopen

/-- A core step leaves a finished core as it is: DVALID = 1 says that it is idle (R29, R106). -/
theorem coreStep_of_dvalid {r : Regs} (h : r.Inv) (hd : r.dvalid = true) : r.coreStep = r :=
  coreStep_idle (h.digestFinal.1 hd).1

/-- Settles O56, by the ways a step can change the registers. -/
theorem finishedDigestHeld : Obligations.FinishedDigestHeld := by
  unfold Obligations.FinishedDigestHeld
  intro s t hinv hd hstep
  have hkept : t.regs = s.regs → t.regs.h = s.regs.h ∧ t.regs.dvalid = true :=
    fun ht => ⟨by rw [ht], by rw [ht, hd]⟩
  cases stepChange_of_step hstep with
  | core _ _ ht =>
    rw [coreStep_of_dvalid hinv.regs hd, ite_self] at ht
    exact .inl (hkept ht)
  | rst level ms hm _ ht =>
    split at ht
    · next hhigh => exact .inr (.inr ⟨level, ms, hm, by simpa using hhigh⟩)
    · exact .inl (hkept ht)
  | access a ms hm h0 _ hc =>
    exact (regChange_of_dvalid hd hc).imp id fun ⟨hinit, hidle⟩ =>
      .inl (acceptsInit_of_access hm h0 hidle hinit)
  | same _ ht => exact .inl (hkept ht)

end Sys2Proof.Proofs
end

section
/-! PROOFS. The statements of 42_control_and_readout.md: command writes, register accesses, the digest's bytes
and its readout, and the turns of the core among accesses that leave the registers. -/

open Sys2Proof Sys2Proof.Machine

namespace Sys2Proof.Proofs

/-! ## Commands and the words that carry them -/

/-- What a command does to the registers when its checks pass (R112, R142, R170, R171). -/
def commandEffect : Command → Regs → Regs
  | .nop => id
  | .init => Regs.acceptInit
  | .block => Regs.acceptBlock
  | .final f => Regs.acceptFinal f

theorem exec_toInstr (c : Command) (s : State) : exec c.toInstr s = attempt c (commandEffect c) s := by
  cases c <;> rfl

theorem exec_toInstr_accepted {c : Command} {s : State} (h : commandError c s.regs = none) :
    exec c.toInstr s = complete (commandEffect c s.regs) 0 s := by
  rw [exec_toInstr, attempt_accepted h]

/-- A legal word written to CMD is its command (R172). -/
theorem exec_wrCmd_legal {w : Word} {c : Command} (h : decodeCommand w = .ok c) (s : State) :
    exec (.wrCmd w) s = exec c.toInstr s := by
  simp only [exec, execWrCmd, h]
  cases c <;> rfl

/-- An illegal word written to CMD is refused (R202). -/
theorem exec_wrCmd_illegal {w : Word} {e : CommandReject} (h : decodeCommand w = .error e) (s : State) :
    exec (.wrCmd w) s = takeError .illegalOp s := by
  simp only [exec, execWrCmd, h]

/-- The Boolean test of R83 is the one that `CommandLegalityTest` writes out. -/
theorem legalCommand_iff (w : Word) :
    legalCommand w = true ↔ (w.extractLsb' 0 4).toNat ≤ 3 ∧ w &&& 0xFFFF80F0#32 = 0 ∧
      (w.extractLsb' 0 4 = 3 ∨ w.extractLsb' 8 7 = 0) := by
  simp [legalCommand, BitVec.le_def, and_assoc]

theorem decodeCommand_illegal {w : Word} (h : legalCommand w = false) :
    ∃ e, decodeCommand w = .error e := by
  refine (commandLegalityTest w).2 fun hlegal => ?_
  rw [(legalCommand_iff w).2 hlegal] at h
  cases h

/-- Where the checks of R208 pass: NOP always, INIT on an idle core, BLOCK and FINAL 0 to 64 on an idle core
without a final digest. -/
theorem commandError_eq_none {c : Command} {r : Regs}
    (h : c = .nop ∨ (r.fsm = .idle ∧ (c = .init ∨
      (r.dvalid = false ∧ (c = .block ∨ ∃ f, c = .final f ∧ f.toNat ≤ 64))))) :
    commandError c r = none := by
  obtain rfl | ⟨hidle, hc⟩ := h
  · rfl
  have hbusy : r.busy = false := (busy_eq_false_iff r).2 hidle
  obtain rfl | ⟨hopen, rfl | ⟨f, rfl, hf⟩⟩ := hc
  · exact (commandError_init_eq_none r).2 hbusy
  · exact (commandError_block_eq_none r).2 ⟨hbusy, hopen⟩
  · exact (commandError_final_eq_none f r).2 ⟨hbusy, hopen, hf⟩

/-- INIT writes every register but FSM, so an accepted one leaves the state after reset (R171, R233). -/
theorem acceptInit_of_idle {r : Regs} (h : r.fsm = .idle) : r.acceptInit = Regs.reset := by
  simp [Regs.acceptInit, Regs.clearError, Regs.reset, h]

/-- Only INIT writes H or the error record when accepted (R21, R210). -/
theorem commandEffect_frame {c : Command} (hc : c ≠ .init) (r : Regs) :
    (commandEffect c r).cerr = r.cerr ∧ (commandEffect c r).ecode = r.ecode ∧
      (commandEffect c r).h = r.h := by
  cases c with
  | nop | block => exact ⟨rfl, rfl, rfl⟩
  | init => exact absurd rfl hc
  | final f =>
    obtain ⟨blk, cont, hf⟩ := acceptFinal_eq_startCompress f r
    rw [commandEffect, hf]
    exact ⟨rfl, rfl, rfl⟩

/-- BLOCK and FINAL start a compression (R108, R112, R142). -/
theorem commandEffect_starts {c : Command} (hc : c = .block ∨ ∃ f, c = .final f) (r : Regs) :
    (commandEffect c r).fsm = .round ∧ (commandEffect c r).ri = 0 := by
  obtain rfl | ⟨f, rfl⟩ := hc
  · exact ⟨rfl, rfl⟩
  · obtain ⟨blk, cont, hf⟩ := acceptFinal_eq_startCompress f r
    rw [commandEffect, hf]
    exact ⟨rfl, rfl⟩

/-- Settles O21: the write is the command itself, and where the checks pass the command leaves its effect. -/
theorem writeCmdPerformsCommand : Obligations.WriteCmdPerformsCommand := by
  unfold Obligations.WriteCmdPerformsCommand
  intro s w c hdecode
  refine ⟨exec_wrCmd_legal hdecode s, fun hchecks => ?_⟩
  have haccepted := exec_toInstr_accepted (commandError_eq_none hchecks)
  rw [exec_wrCmd_legal hdecode s]
  refine ⟨_, haccepted, rfl, fun hc => commandEffect_frame hc s.regs, ?_, ?_,
    fun hc => commandEffect_starts hc s.regs⟩
  · rintro rfl
    rfl
  · rintro rfl
    have hidle : s.regs.fsm = .idle := by simpa using hchecks
    exact acceptInit_of_idle hidle

/-- Settles O15: NOP has no checks and its effect is none. -/
theorem nopCompletes : Obligations.NopCompletes := by
  unfold Obligations.NopCompletes
  exact execNop_eq

/-- Settles O50: the step on the access is the write of the word, which is its command. -/
theorem stepRunsDecodedCommand : Obligations.StepRunsDecodedCommand := by
  unfold Obligations.StepRunsDecodedCommand
  intro s t a w c ms hrst hmoves haccess hdecode hexec
  refine stepRunsDecodedAccess s t a ms hrst hmoves ?_
  rw [haccess, exec_wrCmd_legal hdecode, hexec]

/-! ## Bytes of words -/

/-- A field of a bit vector, shifted down and cut off. -/
theorem extractLsb'_eq_setWidth_ushiftRight {v : Nat} (x : BitVec v) (start len : Nat) :
    x.extractLsb' start len = (x >>> start).setWidth len := by
  refine BitVec.eq_of_toNat_eq ?_
  rw [BitVec.extractLsb'_toNat, BitVec.toNat_setWidth, BitVec.toNat_ushiftRight]

/-- Settles O10: byte 4j + k lies in word j at place k. -/
theorem digestBytesLittleEndian : Obligations.DigestBytesLittleEndian := by
  unfold Obligations.DigestBytesLittleEndian
  intro h j k
  have hword : (4 * j.val + k.val) / 4 = j.val := by omega
  have hplace : (4 * j.val + k.val) % 4 = k.val := by omega
  simp only [digestByte, hword, hplace]
  exact extractLsb'_eq_setWidth_ushiftRight ..

/-- Settles O30: an idle core performs the write, and the bytes of the block after it are known. -/
theorem blockWordWriteSetsFourBytes : Obligations.BlockWordWriteSetsFourBytes := by
  unfold Obligations.BlockWordWriteSetsFourBytes
  intro s j w hidle
  have hbusy : s.regs.busy = false := (busy_eq_false_iff _).2 hidle
  refine ⟨s.regs.blk.set j.val w, writeUnlessBusy_idle hbusy _, Vector.getElem_set_self _, fun n => ?_⟩
  rw [blkByte_set]
  constructor
  · intro hin
    rw [if_pos hin]
    exact extractLsb'_eq_setWidth_ushiftRight ..
  · intro hout
    rw [if_neg hout]

/-! ## Register reads and ignored writes -/

/-- What a good read of a register answers (R175, R177, R178, R179, R181). -/
def readAnswer (r : Regs) : Reg → Word
  | .cmd => 0
  | .status => r.status
  | .lenLo => lenLo r.len
  | .lenHi => lenHi r.len
  | .digest j => r.h[j]
  | .reserved _ => 0
  | .blk j => r.blk[j]

theorem exec_readRow (reg : Reg) (s : State) :
    exec reg.readRow s = readValue (readAnswer s.regs reg) s := by
  cases reg <;> rfl

/-- Settles O31: each read answers its register, LEN by its halves. -/
theorem registerReadsAnswerTheRegister : Obligations.RegisterReadsAnswerTheRegister := by
  unfold Obligations.RegisterReadsAnswerTheRegister
  intro s j k
  rw [← extractLsb'_eq_setWidth_ushiftRight, BitVec.setWidth_eq_extractLsb' (by decide)]
  exact ⟨exec_readRow .lenLo s, exec_readRow .lenHi s, exec_readRow (.digest j) s, exec_readRow (.blk k) s⟩

/-- Settles O33: three ignored writes, and two reads whose answer is 0. -/
theorem unstoredAccessesChangeNothing : Obligations.UnstoredAccessesChangeNothing := by
  unfold Obligations.UnstoredAccessesChangeNothing
  rintro s j x w i (rfl | rfl | rfl | rfl | rfl)
  · rfl
  · rfl
  · rfl
  · exact exec_readRow .cmd s
  · exact exec_readRow (.reserved x) s

/-! ## The readout -/

/-- A good read and its response, as the host records it. -/
def readExchange (r : Regs) (reg : Reg) : Exchange := ⟨.read reg, ⟨readAnswer r reg, false⟩⟩

/-- The step on a good read out of reset: the response and the record alone change (R62). -/
theorem step_read {s : State} {reg : Reg} {ms : List Move} (hrst : s.rst = false)
    (hmoves : s.moves = .access (.read reg) :: ms) :
    step s = .next { s with
      moves := ms, reply := ⟨readAnswer s.regs reg, false⟩, log := readExchange s.regs reg :: s.log } := by
  refine stepRunsDecodedAccess s { s with moves := ms, reply := ⟨readAnswer s.regs reg, false⟩ } _ ms
    hrst hmoves ?_
  rw [decodeAccess_read, exec_readRow]
  rfl

/-- A list of good reads leaves the registers, and each read is answered from them. -/
theorem run_reads {s : State} {rs : List Reg} (hrst : s.rst = false)
    (hmoves : s.moves = rs.map fun reg => .access (.read reg)) :
    ∃ t, run rs.length s = .next t ∧ t.regs = s.regs ∧
      t.log.reverse = s.log.reverse ++ rs.map (readExchange s.regs) := by
  induction rs generalizing s with
  | nil => exact ⟨s, rfl, rfl, by simp⟩
  | cons reg rs ih =>
    obtain ⟨t, hrun, hregs, hlog⟩ := ih (s := { s with
      moves := rs.map fun reg => .access (.read reg), reply := ⟨readAnswer s.regs reg, false⟩,
      log := readExchange s.regs reg :: s.log }) hrst rfl
    exact ⟨t, (run_succ_of_step (step_read hrst hmoves) _).trans hrun, hregs, by simpa using hlog⟩

/-- The digest words, in the order in which RDDIG reads them (R89). -/
def digestRegs : List Reg := [.digest 0, .digest 1, .digest 2, .digest 3]

/-- The STATUS read of a finished core begins a readout, if none has begun (R186). -/
theorem findResult_statusRead {r : Regs} (hd : r.dvalid = true) (hidle : r.fsm = .idle) (o : Option Readout)
    (xs : List Exchange) :
    findResult o (readExchange r .status :: xs) = findResult (some (o.getD ⟨none, none, none⟩)) xs := by
  have hdecode : decodeAccess (readExchange r .status).access = .rdStatus := decodeAccess_read .status
  cases o with
  | none =>
    obtain ⟨hstatusBusy, hstatusDvalid, -⟩ := status_lowBits r
    have hbit0 : (readExchange r .status).reply.rdata.getLsbD 0 = false :=
      hstatusBusy.trans ((busy_eq_false_iff r).2 hidle)
    have hbit1 : (readExchange r .status).reply.rdata.getLsbD 1 = true := hstatusDvalid.trans hd
    have hgood : (readExchange r .status).access.good = true := read_good .status
    rw [findResult, if_pos (by rw [hgood, hdecode, hbit0, hbit1]; rfl)]
    rfl
  | some o => simp [findResult, hdecode]

/-- The reads of DIGEST0 to DIGEST3 give H, whatever the readout holds before them. -/
theorem findResult_digestReads (o : Readout) (r : Regs) :
    findResult (some o) (digestRegs.map (readExchange r)) = some r.h := by
  have hwords : #v[r.h[0], r.h[1], r.h[2], r.h[3]] = r.h := by
    ext j hj
    interval_cases j <;> rfl
  simp [digestRegs, findResult, readExchange, decodeAccess_read, Reg.readRow, readAnswer, hwords]

/-- Settles O48: the five reads go behind a record that ends no run, and the search over them gives H. -/
theorem readoutOfFinishedCoreIsDigest : Obligations.ReadoutOfFinishedCoreIsDigest := by
  unfold Obligations.ReadoutOfFinishedCoreIsDigest
  intro s hrst hd hidle hunfinished hmoves
  obtain ⟨t, hrun, hregs, hlog⟩ := run_reads (rs := .status :: digestRegs) hrst hmoves
  refine ⟨t, hrun, ?_, hregs⟩
  calc runResult t
      = findResult none (s.log.reverse ++ (Reg.status :: digestRegs).map (readExchange s.regs)) := by
        rw [runResult, hlog]
    _ = findResult (readoutAfter none s.log.reverse)
          (readExchange s.regs .status :: digestRegs.map (readExchange s.regs)) :=
        findResult_append hunfinished _
    _ = findResult (some _) (digestRegs.map (readExchange s.regs)) := findResult_statusRead hd hidle _ _
    _ = some s.regs.h := findResult_digestReads _ _

/-! ## Turns of the core among accesses that leave the registers -/

/-- The registers with the error, if there is one, recorded (R204). -/
def noteError : Option ErrorCode → Regs → Regs
  | none, r => r
  | some e, r => r.recordError e

/-- A core step and the record of an error touch different registers. -/
theorem coreStep_noteError (o : Option ErrorCode) (r : Regs) :
    (noteError o r).coreStep = noteError o r.coreStep := by
  cases o with
  | none => rfl
  | some e => exact coreStep_recordError r e

/-- At s the instruction i records the error o, if any, and changes no other register. -/
def LeavesRegs (i : Instr) (o : Option ErrorCode) (s : State) : Prop :=
  ∃ reply, exec i s = .next { s with regs := noteError o s.regs, reply := reply }

theorem leavesRegs_read (reg : Reg) (s : State) : LeavesRegs reg.readRow none s :=
  ⟨_, exec_readRow reg s⟩

theorem leavesRegs_illegal {w : Word} {e : CommandReject} (h : decodeCommand w = .error e) (s : State) :
    LeavesRegs (.wrCmd w) (some .illegalOp) s :=
  ⟨_, exec_wrCmd_illegal h s⟩

/-- A passive access leaves the registers in every state, and its error does not depend on the state. -/
theorem leavesRegs_of_passive {i : Instr} (hi : i.passive = true) : ∃ o, ∀ s, LeavesRegs i o s := by
  cases rowKind i with
  | command c =>
    cases c with
    | nop => exact ⟨none, fun s => ⟨_, execNop_eq s⟩⟩
    | init | block | final => cases hi
  | write reg w =>
    cases reg with
    | cmd =>
      have hw : w = 0 ∨ legalCommand w = false := by simpa [Reg.writeRow, Instr.passive] using hi
      obtain rfl | hillegal := hw
      · have hnop : decodeCommand 0 = .ok .nop := by decide
        exact ⟨none, fun s => ⟨_, exec_wrCmd_legal hnop s⟩⟩
      · obtain ⟨e, he⟩ := decodeCommand_illegal hillegal
        exact ⟨some .illegalOp, leavesRegs_illegal he⟩
    | status | digest | reserved => exact ⟨none, fun s => ⟨_, rfl⟩⟩
    | lenLo | lenHi | blk => cases hi
  | read reg => exact ⟨none, leavesRegs_read reg⟩
  | narrow | misaligned => exact ⟨some .badAccess, fun s => ⟨_, rfl⟩⟩

/-- A command leaves the registers of every busy core, with the same error. -/
theorem command_leavesRegs_of_busy (c : Command) :
    ∃ o, ∀ s : State, s.regs.busy = true → LeavesRegs c.toInstr o s := by
  by_cases hc : c = .nop
  · subst hc
    exact ⟨none, fun s _ => ⟨_, execNop_eq s⟩⟩
  · refine ⟨some .busy, fun s hbusy => ⟨⟨0, false⟩, ?_⟩⟩
    rw [exec_toInstr, attempt_refused (commandError_busy hbusy hc)]
    rfl

/-- Every access leaves the registers of every busy core, and its error does not depend on the state (R203,
R208). -/
theorem leavesRegs_of_busy (i : Instr) :
    ∃ o, ∀ s : State, s.regs.busy = true → LeavesRegs i o s := by
  cases rowKind i with
  | command c => exact command_leavesRegs_of_busy c
  | write reg w =>
    cases reg with
    | cmd =>
      cases hdecode : decodeCommand w with
      | error e => exact ⟨some .illegalOp, fun s _ => leavesRegs_illegal hdecode s⟩
      | ok c =>
        obtain ⟨o, ho⟩ := command_leavesRegs_of_busy c
        refine ⟨o, fun s hbusy => ?_⟩
        rw [Reg.writeRow, LeavesRegs, exec_wrCmd_legal hdecode]
        exact ho s hbusy
    | lenLo | lenHi | blk => exact ⟨some .busy, fun s hbusy => ⟨_, writeUnlessBusy_busy hbusy _⟩⟩
    | status | digest | reserved => exact ⟨none, fun s _ => ⟨_, rfl⟩⟩
  | read reg => exact ⟨none, fun s _ => leavesRegs_read reg s⟩
  | narrow | misaligned => exact ⟨some .badAccess, fun s _ => ⟨_, rfl⟩⟩

/-- An access that leaves the registers before and after a turn of the core, with one and the same error,
commutes with that turn. -/
theorem coreTurn_commutes {i : Instr} {o : Option ErrorCode} {s t u : State}
    (hbefore : LeavesRegs i o s) (hafter : LeavesRegs i o (coreTurn s))
    (ht : exec i s = .next t) (hu : exec i (coreTurn s) = .next u) : (coreTurn t).regs = u.regs := by
  obtain ⟨v, hv⟩ := hbefore
  obtain ⟨v', hv'⟩ := hafter
  cases hv.symm.trans ht
  cases hv'.symm.trans hu
  simp only [coreTurn_regs]
  split
  · rfl
  · exact coreStep_noteError o s.regs

/-- Settles O58: whether the access is passive or finds the core busy both times, it leaves the registers but
for one error record. -/
theorem coreTurnCommutesWithNeutralAccess : Obligations.CoreTurnCommutesWithNeutralAccess := by
  unfold Obligations.CoreTurnCommutesWithNeutralAccess
  rintro i s t u (hpassive | ⟨hbefore, hafter⟩) ht hu
  · obtain ⟨o, ho⟩ := leavesRegs_of_passive hpassive
    exact coreTurn_commutes (ho s) (ho _) ht hu
  · obtain ⟨o, ho⟩ := leavesRegs_of_busy i
    exact coreTurn_commutes (ho s hbefore) (ho _ hafter) ht hu

/-! ## Schedules -/

/-- The registers with the error record replaced. -/
def withRecord (cerr : Bool) (ecode : ErrorCode) (r : Regs) : Regs := { r with cerr := cerr, ecode := ecode }

theorem accumulate_withRecord (cerr : Bool) (ecode : ErrorCode) (r : Regs) :
    (withRecord cerr ecode r).accumulate = withRecord cerr ecode r.accumulate := by
  cases hc : r.cont with
  | doneBlock => rw [accumulate_doneBlock hc, accumulate_doneBlock (r := withRecord cerr ecode r) hc]; rfl
  | doneFinal => rw [accumulate_doneFinal hc, accumulate_doneFinal (r := withRecord cerr ecode r) hc]; rfl
  | nextLenOnly =>
    rw [accumulate_nextLenOnly hc, accumulate_nextLenOnly (r := withRecord cerr ecode r) hc]; rfl
  | next80Len => rw [accumulate_next80Len hc, accumulate_next80Len (r := withRecord cerr ecode r) hc]; rfl

/-- No core step reads the error record (R106). -/
theorem coreStep_withRecord (cerr : Bool) (ecode : ErrorCode) (r : Regs) :
    (withRecord cerr ecode r).coreStep = withRecord cerr ecode r.coreStep := by
  cases hf : r.fsm with
  | idle => rw [coreStep_idle hf, coreStep_idle (r := withRecord cerr ecode r) hf]
  | round => rw [coreStep_round hf, coreStep_round (r := withRecord cerr ecode r) hf]; rfl
  | accum =>
    rw [coreStep_accum hf, coreStep_accum (r := withRecord cerr ecode r) hf, accumulate_withRecord]

theorem withRecord_noteError (cerr : Bool) (ecode : ErrorCode) (o : Option ErrorCode) (r : Regs) :
    withRecord cerr ecode (noteError o r) = withRecord cerr ecode r := by
  cases o <;> rfl

/-- What a step on a neutral move does, but for the error record: a turn of the core steps the registers, and
every other neutral move leaves them. -/
theorem step_neutral {s : State} {m : Move} {ms : List Move} (hm : m.neutral = true)
    (hrst : s.rst = false) (hmoves : s.moves = m :: ms) :
    ∃ t, step s = .next t ∧ t.rst = false ∧ t.moves = ms ∧ ∀ cerr ecode,
      withRecord cerr ecode t.regs =
        (if m = .core then Regs.coreStep else id) (withRecord cerr ecode s.regs) := by
  rw [step_cons hmoves]
  cases m with
  | access a =>
    obtain ⟨o, ho⟩ := leavesRegs_of_passive hm
    obtain ⟨v, hv⟩ := ho { s with moves := ms }
    exact ⟨_, hostAccess_of_exec (s := { s with moves := ms }) hrst hv, hrst, rfl,
      fun cerr ecode => withRecord_noteError cerr ecode o s.regs⟩
  | core =>
    refine ⟨_, rfl, by simpa using hrst, by simp, fun cerr ecode => ?_⟩
    rw [coreTurn_outOfReset (s := { s with moves := ms }) hrst]
    exact (coreStep_withRecord cerr ecode s.regs).symm
  | hold => exact ⟨_, rfl, hrst, rfl, fun _ _ => rfl⟩
  | poll | rst => cases hm

/-- Neutral moves step the registers once for each turn of the core among them, but for the error record. -/
theorem run_neutral {s t : State} {ms : List Move} (hrst : s.rst = false) (hmoves : s.moves = ms)
    (hneutral : ∀ m ∈ ms, m.neutral = true) (hrun : run ms.length s = .next t) (cerr : Bool)
    (ecode : ErrorCode) :
    withRecord cerr ecode t.regs =
      Regs.coreStep^[ms.countP (· = .core)] (withRecord cerr ecode s.regs) := by
  induction ms generalizing s with
  | nil => cases hrun; rfl
  | cons m ms ih =>
    obtain ⟨u, hstep, hrst', hmoves', hregs⟩ := step_neutral (hneutral m (by simp)) hrst hmoves
    have hrest := ih hrst' hmoves' (fun m' hm' => hneutral m' (by simp [hm']))
      ((run_succ_of_step hstep ms.length).symm.trans hrun)
    rw [hrest, hregs, List.countP_cons]
    by_cases hcore : m = .core
    · simp [hcore]
    · simp [hcore]

/-- Settles O59: with its own error record put back, the first state's registers are what they were. -/
theorem scheduleDoesNotChangeOutcome : Obligations.ScheduleDoesNotChangeOutcome := by
  unfold Obligations.ScheduleDoesNotChangeOutcome
  intro s t ms hrst hmoves hneutral hrun
  exact run_neutral hrst hmoves hneutral hrun s.regs.cerr s.regs.ecode

end Sys2Proof.Proofs
end

section
/-! PROOFS. The statements of 60_exceptions.md: the error record and its clearing, what is refused and with
which error, the steps that never stop, and the cores of a platform. -/

open Sys2Proof Sys2Proof.Machine

namespace Sys2Proof.Proofs

/-! ## The error record -/

/-- Settles O22: an error is recorded in CERR and ECODE where none is yet, and nowhere otherwise. -/
theorem firstErrorIsKept : Obligations.FirstErrorIsKept := by
  unfold Obligations.FirstErrorIsKept
  refine fun r e => ⟨fun hclear => ?_, fun hcerr => recordError_of_cerr hcerr e⟩
  rw [Regs.recordError, hclear]
  rfl

/-- An instruction that finds an error recorded keeps it and its code, but for an accepted INIT (R204, R210). -/
theorem regChange_of_cerr {i : Instr} {r r' : Regs} (hcerr : r.cerr = true) (hc : RegChange i r r') :
    (r'.cerr = true ∧ r'.ecode = r.ecode) ∨
      ((i = .init ∨ ∃ w, i = .wrCmd w ∧ decodeCommand w = .ok .init) ∧ r.busy = false) := by
  cases hc with
  | same | lenLo | lenHi | blk | block => exact .inl ⟨hcerr, rfl⟩
  | error e =>
    rw [recordError_of_cerr hcerr]
    exact .inl ⟨hcerr, rfl⟩
  | init hi hidle => exact .inr ⟨hi, hidle⟩
  | final f =>
    have hne : Command.final f ≠ .init := by simp
    obtain ⟨hcerr', hecode, -⟩ := commandEffect_frame hne r
    exact .inl ⟨hcerr'.trans hcerr, hecode⟩

/-- Settles O55, by the ways a step can change the registers. -/
theorem errorRecordClearedOnlyByInitOrReset : Obligations.ErrorRecordClearedOnlyByInitOrReset := by
  unfold Obligations.ErrorRecordClearedOnlyByInitOrReset
  intro s t hcerr hstep
  have hkept : t.regs = s.regs → t.regs.cerr = true ∧ t.regs.ecode = s.regs.ecode :=
    fun ht => ⟨by rw [ht, hcerr], by rw [ht]⟩
  cases stepChange_of_step hstep with
  | core _ _ ht =>
    split at ht
    · exact .inl (hkept ht)
    · obtain ⟨hcerr', hecode⟩ := coreStep_errorRecord s.regs
      exact .inl ⟨by rw [ht, hcerr', hcerr], by rw [ht, hecode]⟩
  | rst level ms hm _ ht =>
    split at ht
    · next hhigh => exact .inr (.inr ⟨level, ms, hm, by simpa using hhigh⟩)
    · exact .inl (hkept ht)
  | access a ms hm h0 _ hc =>
    exact (regChange_of_cerr hcerr hc).imp id fun ⟨hinit, hidle⟩ =>
      .inl (acceptsInit_of_access hm h0 hidle hinit)
  | same _ ht => exact .inl (hkept ht)

/-! ## Refused commands and writes -/

theorem exec_toInstr_refused {c : Command} {s : State} {e : ErrorCode} (h : commandError c s.regs = some e) :
    exec c.toInstr s = takeError e s := by
  rw [exec_toInstr, attempt_refused h]

/-- BLOCK and FINAL on an idle core with a final digest fail the check for SEQUENCE (R208). -/
theorem commandError_sequence {c : Command} (hc : c = .block ∨ ∃ f, c = .final f) {r : Regs}
    (hidle : r.fsm = .idle) (hd : r.dvalid = true) : commandError c r = some .sequence := by
  have hbusy : r.busy = false := (busy_eq_false_iff r).2 hidle
  obtain rfl | ⟨f, rfl⟩ := hc
  · simp [commandError, hbusy, hd]
  · simp [commandError, hbusy, hd]

/-- FINAL with FILLED above 64 fails the last of its checks (R208). -/
theorem commandError_badFilled {f : BitVec 7} {r : Regs} (hidle : r.fsm = .idle) (hopen : r.dvalid = false)
    (hf : 64 < f.toNat) : commandError (.final f) r = some .badFilled := by
  have hbusy : r.busy = false := (busy_eq_false_iff r).2 hidle
  simp [commandError, hbusy, hopen, hf]

/-- Settles O23: the word decodes to a rejection. -/
theorem illegalCommandRefused : Obligations.IllegalCommandRefused := by
  unfold Obligations.IllegalCommandRefused
  intro s w hillegal
  obtain ⟨e, hdecode⟩ := decodeCommand_illegal hillegal
  exact exec_wrCmd_illegal hdecode s

/-- Settles O24: the commands fail their first check, the writes theirs. -/
theorem busyRefusesWrites : Obligations.BusyRefusesWrites := by
  unfold Obligations.BusyRefusesWrites
  intro s f j w i hfsm hi
  have hbusy : s.regs.busy = true := (busy_eq_true_iff _).2 hfsm
  have hcommand : ∀ c : Command, c ≠ .nop → exec c.toInstr s = takeError .busy s :=
    fun c hc => exec_toInstr_refused (commandError_busy hbusy hc)
  obtain rfl | rfl | rfl | rfl | rfl | rfl := hi
  · exact hcommand .init (by simp)
  · exact hcommand .block (by simp)
  · exact hcommand (.final f) (by simp)
  · exact writeUnlessBusy_busy hbusy _
  · exact writeUnlessBusy_busy hbusy _
  · exact writeUnlessBusy_busy hbusy _

/-- Settles O25, by the checks of the two commands. -/
theorem finalizedCoreRefusesCompression : Obligations.FinalizedCoreRefusesCompression := by
  unfold Obligations.FinalizedCoreRefusesCompression
  intro s f hidle hd
  exact ⟨exec_toInstr_refused (commandError_sequence (.inl rfl) hidle hd),
    exec_toInstr_refused (commandError_sequence (.inr ⟨f, rfl⟩) hidle hd)⟩

/-- Settles O26, by the checks of FINAL. -/
theorem badFilledRefused : Obligations.BadFilledRefused := by
  unfold Obligations.BadFilledRefused
  exact fun s f hidle hopen hf => exec_toInstr_refused (commandError_badFilled hidle hopen hf)

/-! ## The bus error -/

/-- Settles O27: both rows record BAD_ACCESS, the one code whose response is err = 1. -/
theorem badAccessRecorded : Obligations.BadAccessRecorded := by
  unfold Obligations.BadAccessRecorded
  exact fun s we be addr wdata => ⟨rfl, rfl⟩

/-- The errors of the checks of R208 are not bus errors (R201). -/
theorem commandError_busErr {c : Command} {r : Regs} {e : ErrorCode} (h : commandError c r = some e) :
    e.busErr = false := by
  obtain rfl | rfl | rfl := commandError_codes h
  · rfl
  · rfl
  · rfl

/-- A command responds err = 0, accepted or refused (R53, R209). -/
theorem exec_toInstr_err (c : Command) (s : State) :
    ∃ t, exec c.toInstr s = .next t ∧ t.reply.err = false := by
  rw [exec_toInstr]
  obtain ⟨t, ht, -, -, -, ⟨-, -, hreply⟩ | ⟨e, he, -, hreply⟩⟩ :=
    attempt_next (c := c) (f := commandEffect c) (s := s)
  · exact ⟨t, ht, by rw [hreply]⟩
  · exact ⟨t, ht, by rw [hreply, commandError_busErr he]⟩

/-- A write that only an idle core takes responds err = 0, performed or refused (R53, R203). -/
theorem writeUnlessBusy_err (f : Regs → Regs) (s : State) :
    ∃ t, writeUnlessBusy f s = .next t ∧ t.reply.err = false := by
  cases hbusy : s.regs.busy with
  | true => exact ⟨_, writeUnlessBusy_busy hbusy f, rfl⟩
  | false => exact ⟨_, writeUnlessBusy_idle hbusy f, rfl⟩

/-- A good write responds err = 0, whatever word it carries (R53). -/
theorem exec_writeRow_err (reg : Reg) (w : Word) (s : State) :
    ∃ t, exec (reg.writeRow w) s = .next t ∧ t.reply.err = false := by
  cases reg with
  | cmd =>
    rw [Reg.writeRow]
    cases hdecode : decodeCommand w with
    | error e => exact ⟨_, exec_wrCmd_illegal hdecode s, rfl⟩
    | ok c =>
      rw [exec_wrCmd_legal hdecode]
      exact exec_toInstr_err c s
  | lenLo | lenHi | blk => exact writeUnlessBusy_err _ s
  | status | digest | reserved => exact ⟨_, rfl, rfl⟩

/-- Settles O28: the bad accesses decode to the two BAD ACCESS rows, the good ones to the good rows. -/
theorem errExactlyOnBadAccess : Obligations.ErrExactlyOnBadAccess := by
  unfold Obligations.ErrExactlyOnBadAccess
  refine fun s a => ⟨fun hbad => ?_, fun hbe haddr => ?_⟩
  · obtain ⟨hnarrow, hmisaligned⟩ := badAccessRecorded s a.we a.be a.addr a.wdata
    by_cases hbe : a.be = 0xF
    · rw [decodeAccess_misaligned hbe (hbad.resolve_left (not_not.2 hbe)), hmisaligned]
    · rw [decodeAccess_narrow hbe, hnarrow]
  · rw [decodeAccess_good ((access_good_iff a).2 ⟨hbe, haddr⟩)]
    split
    · exact exec_writeRow_err _ _ s
    · exact ⟨_, exec_readRow _ s, rfl⟩

/-! ## Steps that never stop -/

/-- Settles O51: each way a step can go has its next state. -/
theorem everyStepAnswers : Obligations.EveryStepAnswers := by
  unfold Obligations.EveryStepAnswers
  intro s
  obtain ⟨t, ht, -⟩ := step_cases s
  exact ⟨t, ht⟩

/-! ## The cores of a platform -/

/-- The platform with one core's state replaced: what a step of the core and an access to it do (R215). -/
def withCore {n : Nat} (k : Fin n) (t : State) (p : Platform n) : Platform n :=
  { cores := p.cores.set k.val t }

theorem withCore_same {n : Nat} (k : Fin n) (t : State) (p : Platform n) : (withCore k t p).cores[k] = t :=
  Vector.getElem_set_self _

theorem withCore_other {n : Nat} {j k : Fin n} (h : j ≠ k) (t : State) (p : Platform n) :
    (withCore k t p).cores[j] = p.cores[j] :=
  Vector.getElem_set_ne k.isLt j.isLt (Fin.val_ne_of_ne h.symm)

/-- A step of core k is the step of core k alone (R215). -/
theorem platformStep_of_step {n : Nat} {k : Fin n} {p : Platform n} {t : State}
    (h : step p.cores[k] = .next t) : p.step k = .next (withCore k t p) := by
  rw [Platform.step, h]
  rfl

/-- An access to a platform address inside no window changes no core (R50). -/
theorem present_outside {n : Nat} {address : Nat} (h : ∀ j : Fin n, windowOffset j address = none)
    (we : Bool) (be : BitVec 4) (wdata : Word) (p : Platform n) : p.present we be address wdata = p := by
  rw [Platform.present, route_eq_none h]

/-- Settles O60: a step and a routed access each replace the state of one core, and no address lies in two
windows. -/
theorem coresShareNoState : Obligations.CoresShareNoState := by
  unfold Obligations.CoresShareNoState
  refine fun n p k => ⟨?_, fun j address hjk hk => ?_, fun we be off wdata => ?_,
    fun we be address wdata houtside => present_outside houtside we be wdata p⟩
  · obtain ⟨t, ht⟩ := everyStepAnswers p.cores[k]
    exact ⟨_, t, platformStep_of_step ht, ht, withCore_same k t p, fun j hjk => withCore_other hjk t p⟩
  · obtain ⟨off, hoff⟩ := Option.ne_none_iff_exists'.1 hk
    exact windowOffset_other hoff (Fin.val_ne_of_ne hjk)
  · have hoff := (windowOffset_eq_some_iff k (Config.base k + off.toNat) off).2 rfl
    exact ⟨_, present_eq hoff we be wdata p, withCore_same k _ p, fun j hjk => withCore_other hjk _ p⟩

end Sys2Proof.Proofs
end

section
/-! PROOFS. The statements of 70_reset_and_hazards.md: rst driven and released, what is held while it is 1,
INIT against reset, and the end of POLL. -/

open Sys2Proof Sys2Proof.Machine

namespace Sys2Proof.Proofs

/-! ## Compressions come to their end -/

/-- A compression after which nothing is left to start ends in the idle core (R107, R111). -/
theorem iterate_compression_idle {r : Regs} (h : r.cont = .doneBlock ∨ r.cont = .doneFinal) :
    (Regs.coreStep^[65] r.startCompress).fsm = .idle := by
  obtain ⟨a, b, c, d, hend⟩ := iterate_compression_ex r
  rw [hend]
  obtain h | h := h <;> simp only [Regs.continueFinal, h]

/-- The accumulate step leaves the core idle, or one compression away from it (R111). -/
theorem accum_reaches_idle {r : Regs} (h : r.fsm = .accum) : ∃ m, (Regs.coreStep^[m] r).fsm = .idle := by
  have hnext (hc : r.cont = .nextLenOnly ∨ r.cont = .next80Len) :
      (Regs.coreStep^[65 + 1] r).fsm = .idle := by
    rw [Function.iterate_succ_apply, coreStep_accum h, accumulate_next hc]
    exact iterate_compression_idle (.inr rfl)
  cases hc : r.cont with
  | doneBlock => exact ⟨1, by rw [Function.iterate_one, coreStep_accum h, accumulate_doneBlock hc]⟩
  | doneFinal => exact ⟨1, by rw [Function.iterate_one, coreStep_accum h, accumulate_doneFinal hc]⟩
  | nextLenOnly => exact ⟨65 + 1, hnext (.inl hc)⟩
  | next80Len => exact ⟨65 + 1, hnext (.inr hc)⟩

/-- The round steps reach the accumulate step (R107). -/
theorem round_reaches_accum {r : Regs} (h : r.fsm = .round) : ∃ n, (Regs.coreStep^[n] r).fsm = .accum := by
  have hri : r.ri.toNat < 64 := r.ri.isLt
  obtain ⟨a, b, c, d, hend⟩ := iterate_roundSteps h (64 - r.ri.toNat) le_rfl
  refine ⟨64 - r.ri.toNat, ?_⟩
  rw [hend]
  exact if_pos (by omega)

/-- From any state of the registers finitely many core steps lead to an idle core (R107, R241). -/
theorem coreSteps_reach_idle (r : Regs) : ∃ m, (Regs.coreStep^[m] r).fsm = .idle := by
  cases h : r.fsm with
  | idle => exact ⟨0, h⟩
  | accum => exact accum_reaches_idle h
  | round =>
    obtain ⟨n, hn⟩ := round_reaches_accum h
    obtain ⟨m, hm⟩ := accum_reaches_idle hn
    exact ⟨m + n, by rwa [Function.iterate_add_apply]⟩

/-! ## POLL -/

/-- A round of POLL out of reset is a read of STATUS, and leaves a turn of the core and another round pending
exactly while the core is busy (R89). -/
theorem step_poll {s : State} {ms : List Move} (hrst : s.rst = false) (hmoves : s.moves = .poll :: ms) :
    step s = .next { s with
      moves := if s.regs.busy then .core :: .poll :: ms else ms
      reply := ⟨s.regs.status, false⟩, log := readExchange s.regs .status :: s.log } := by
  obtain ⟨hbit, -⟩ := status_lowBits s.regs
  rw [step_cons hmoves, perform, hostPoll, hostAccess_readStatus]
  simp only [hrst, Bool.false_eq_true, if_false, noteExchange_reply, hbit]
  cases s.regs.busy <;> rfl

/-- A pending turn of the core, out of reset (R106). -/
theorem step_core {s : State} {ms : List Move} (hrst : s.rst = false) (hmoves : s.moves = .core :: ms) :
    step s = .next { s with regs := s.regs.coreStep, moves := ms } := by
  rw [step_cons hmoves, perform, coreTurn_outOfReset (s := { s with moves := ms }) hrst]

/-- POLL leaves the list of moves by a read of STATUS that shows BUSY = 0, with nothing but core steps done
(R241). -/
def PollEnds (s : State) : Prop :=
  ∃ n t, run n s = .next t ∧ t.moves = [] ∧ t.regs.busy = false ∧
    t.reply.rdata.getLsbD 0 = false ∧ ∃ m, t.regs = Regs.coreStep^[m] s.regs

/-- At an idle core the first read of STATUS ends POLL (R89). -/
theorem pollEnds_of_idle {s : State} (hrst : s.rst = false) (hmoves : s.moves = [.poll])
    (hidle : s.regs.busy = false) : PollEnds s := by
  obtain ⟨hbit, -⟩ := status_lowBits s.regs
  exact ⟨1, _, run_succ_of_step (step_poll hrst hmoves) 0, by rw [hidle]; rfl, hidle, hbit.trans hidle,
    0, rfl⟩

/-- At a busy core POLL comes after two steps to its next round, one core step on (R89; log entry 6). -/
theorem run_poll_busy {s : State} (hrst : s.rst = false) (hmoves : s.moves = [.poll])
    (hbusy : s.regs.busy = true) :
    ∃ u, run 2 s = .next u ∧ u.rst = false ∧ u.moves = [.poll] ∧ u.regs = s.regs.coreStep := by
  obtain ⟨v, hread, hrst', hturn, hregs⟩ : ∃ v, step s = .next v ∧ v.rst = false ∧
      v.moves = [.core, .poll] ∧ v.regs = s.regs :=
    ⟨_, step_poll hrst hmoves, hrst, if_pos hbusy, rfl⟩
  exact ⟨_, (run_succ_of_step hread 1).trans (run_succ_of_step (step_core hrst' hturn) 0), hrst', rfl,
    by rw [hregs]⟩

/-- POLL ends at the latest when its core steps have come to an idle core. -/
theorem pollEnds_of_iterate {s : State} (hrst : s.rst = false) (hmoves : s.moves = [.poll]) {m : Nat}
    (hidle : (Regs.coreStep^[m] s.regs).busy = false) : PollEnds s := by
  induction m generalizing s with
  | zero => exact pollEnds_of_idle hrst hmoves hidle
  | succ m ih =>
    cases hbusy : s.regs.busy with
    | false => exact pollEnds_of_idle hrst hmoves hbusy
    | true =>
      obtain ⟨u, hround, hrst', hmoves', hregs⟩ := run_poll_busy hrst hmoves hbusy
      obtain ⟨n, t, hrun, hgone, hdone, hread, k, hk⟩ := ih hrst' hmoves' (by rwa [hregs])
      exact ⟨2 + n, t, (run_add_of_run hround n).trans hrun, hgone, hdone, hread, k + 1,
        by rw [hk, hregs, Function.iterate_succ_apply]⟩

/-- Where a host that only polls can be: before a read, before the core's turn, or done with the core idle. -/
inductive Polling (s : State) : Prop where
  | read (hrst : s.rst = false) (hmoves : s.moves = [.poll])
  | turn (hrst : s.rst = false) (hmoves : s.moves = [.core, .poll])
  | done (hrst : s.rst = false) (hmoves : s.moves = []) (hidle : s.regs.busy = false)

theorem step_polling {s : State} (h : Polling s) : ∃ t, step s = .next t ∧ Polling t := by
  cases h with
  | read hrst hmoves =>
    refine ⟨_, step_poll hrst hmoves, ?_⟩
    cases hbusy : s.regs.busy with
    | true => exact .turn hrst rfl
    | false => exact .done hrst rfl hbusy
  | turn hrst hmoves => exact ⟨_, step_core hrst hmoves, .read hrst rfl⟩
  | done hrst hmoves hidle =>
    have hstays : s.regs.coreStep = s.regs := coreStep_idle ((busy_eq_false_iff _).1 hidle)
    refine ⟨_, step_nil hmoves, .done ?_ ?_ ?_⟩
    · rw [coreTurn_rst, hrst]
    · rw [coreTurn_moves, hmoves]
    · rw [coreTurn_outOfReset hrst, hstays, hidle]

theorem run_polling {s : State} (h : Polling s) (n : Nat) : ∃ t, run n s = .next t ∧ Polling t := by
  induction n generalizing s with
  | zero => exact ⟨s, rfl, h⟩
  | succ n ih =>
    obtain ⟨u, hstep, hu⟩ := step_polling h
    rw [run_succ_of_step hstep]
    exact ih hu

/-- Settles O43: the core steps between the reads come to an idle core, and POLL leaves the list only at
one. -/
theorem pollEndsAtIdle : Obligations.PollEndsAtIdle := by
  unfold Obligations.PollEndsAtIdle
  intro s hrst hmoves
  obtain ⟨m, hidle⟩ := coreSteps_reach_idle s.regs
  refine ⟨pollEnds_of_iterate hrst hmoves ((busy_eq_false_iff _).2 hidle), fun n t hrun hgone => ?_⟩
  obtain ⟨u, hrun', hu⟩ := run_polling (.read hrst hmoves) n
  cases hrun.symm.trans hrun'
  cases hu with
  | read _ hpending | turn _ hpending => simp [hgone] at hpending
  | done _ _ hdone => exact hdone

/-! ## The reset line -/

/-- Driving rst to 1 and releasing it both load the reset values (R230). -/
theorem driveRst_loads {s : State} {level : Bool} (h : level = true ∨ s.rst = true) :
    driveRst level s = { s with regs := Regs.reset, rst := level } := by
  have hload : (level || s.rst) = true := by simpa using h
  rw [driveRst, if_pos hload]

/-- Settles O13: the step is the load, and the reset values show BUSY = 0 and DVALID = 0. -/
theorem resetLineLoadsResetValues : Obligations.ResetLineLoadsResetValues := by
  unfold Obligations.ResetLineLoadsResetValues
  intro s level ms hmoves hload
  refine ⟨?_, rfl, rfl⟩
  rw [step_cons hmoves, perform, driveRst_loads (s := { s with moves := ms }) hload]

/-- Settles O14: an access under reset, a pending turn of the core, and the core's own turn. -/
theorem nothingHappensUnderReset : Obligations.NothingHappensUnderReset := by
  unfold Obligations.NothingHappensUnderReset
  refine fun s hrst => ⟨fun a ms hmoves => ?_, fun ms hmoves => ?_, fun hmoves => ?_⟩
  · rw [step_cons hmoves, perform, hostAccess_inReset (s := { s with moves := ms }) hrst]
    rfl
  · rw [step_cons hmoves, perform, coreTurn_inReset (s := { s with moves := ms }) hrst]
  · rw [step_nil hmoves, coreTurn_inReset hrst]

/-! ## INIT -/

/-- Settles O16: an idle core accepts INIT, which then leaves the reset values. -/
theorem initEqualsReset : Obligations.InitEqualsReset := by
  unfold Obligations.InitEqualsReset
  intro s hidle
  have haccepted : commandError .init s.regs = none :=
    (commandError_init_eq_none _).2 ((busy_eq_false_iff _).2 hidle)
  calc exec .init s = complete s.regs.acceptInit 0 s := exec_toInstr_accepted haccepted
    _ = complete Regs.reset 0 s := by rw [acceptInit_of_idle hidle]

end Sys2Proof.Proofs
end
